-- ==== Sys2Proof/Word.lean ====
section
/-! DEFINITION. The three widths of the block (spec/20_memory.md R47): 8-bit data registers and `STATUS`, 16-bit
command words and converter inputs, 32-bit converter outputs. Bit 0 is the least significant bit (R5). -/

namespace Sys2Proof

/-- A byte: `D[i]`, `STATUS`, one byte of a frame (R5, R47). -/
abbrev Byte := BitVec 8

/-- A 16-bit value: a command word, or the converter's input (R47). -/
abbrev Half := BitVec 16

/-- A 32-bit value: the converter's output (R47). -/
abbrev Word := BitVec 32

end Sys2Proof
end

