-- ==== Sys2Proof/Config.lean ====
section
/-! DEFINITION. What an implementation fixes (spec/00_scope.md R4, spec/20_memory.md R40 and R41), and the free values:
the opaque constants behind every value the spec leaves unspecified. -/

namespace Sys2Proof.Config

/-- `NMAX`: the number of data registers and the largest payload count (R4, decision D3; log entry 9). -/
abbrev nmax : Nat := 16

/-- `BUFLEN`: the largest frame length, `NMAX + 2` (R4). -/
abbrev bufLen : Nat := nmax + 2

/-- `IMU_FILL`: the byte sent in payload positions of an IMU-style read (R4, R65, decision D4; log entry 9). -/
def imuFill : Byte := 0x00#8

/-- `TP_FILL`: the byte sent after the command byte of a touchpad-style read (R4). -/
def tpFill : Byte := 0xFC#8

/-- `IMU_RD_FLAG`: the bit set in byte 0 of an IMU-style read (R4). -/
def imuRdFlag : Byte := 0x80#8

/-- `TP_RD_OP`: the opcode OR'd with the address in byte 0 of a touchpad-style read (R4). -/
def tpRdOp : Byte := 0xA0#8

/-- `TP_WR_OP`: the opcode OR'd with the address in byte 0 of a touchpad-style write (R4). -/
def tpWrOp : Byte := 0x80#8

/-- `any8` (R6): the `k`-th byte the spec does not fix. It has no body, so nothing can be proved of its value.
Used for `D` at reset (R13), `D[0..N-1]` after a failed exchange (R94), and `D[i]` read while busy (R26).
Log entry 8. -/
opaque any8 : Nat → BitVec 8

/-- The unspecified contents of the latched command after a reset (R22), as one 16-bit pattern. Log entry 4. -/
opaque anyWord : Nat → BitVec 16

/-! The device register addresses the document fixes, "bit-exact, must be reproduced". The block treats none of them
specially (R40, R41); the pseudo-instructions of R72 use them. -/

/-- IMU identity register (R40). -/
def imuIdentity : BitVec 7 := 0x0F#7
/-- IMU accel-control register (R40). -/
def imuAccelControl : BitVec 7 := 0x10#7
/-- IMU gyro-control register (R40). -/
def imuGyroControl : BitVec 7 := 0x11#7
/-- IMU common-control register (R40). -/
def imuCommonControl : BitVec 7 := 0x13#7
/-- Base of the IMU motion-data block, 12 bytes (R40). -/
def imuMotionData : BitVec 7 := 0x22#7
/-- Touchpad status register (R41). -/
def tpStatus : BitVec 7 := 0x02#7
/-- Touchpad mode register, bit 0 is reset (R41). -/
def tpMode : BitVec 7 := 0x03#7
/-- Touchpad config register `0x04` (R41). -/
def tpConfig4 : BitVec 7 := 0x04#7
/-- Touchpad config register `0x05` (R41). -/
def tpConfig5 : BitVec 7 := 0x05#7
/-- Base of the touchpad touch-data block, 4 bytes (R41). -/
def tpTouchData : BitVec 7 := 0x14#7

end Sys2Proof.Config
end

