-- ==== Sys2Proof/Syntax.lean ====
section
/-! DEFINITION. The instructions: one constructor per row of spec/opcode_table.json. The four framer commands carry the
fields `addr` and `n` of format C as they stand in the command word (spec/30_encoding.md R60); `CVT` carries the whole
16-bit operand of format V (R61). Which field values are legal is Sys2Proof/WellFormed.lean (R62). -/

namespace Sys2Proof

/-- The `op` field of a command word, bits 15:14 (R60). Bit 15 is the style, bit 14 the direction. -/
inductive Op where
  /-- `00`: IMU-style write (R100). -/
  | imuWr
  /-- `01`: IMU-style read (R101). -/
  | imuRd
  /-- `10`: touchpad-style write (R102). -/
  | tpWr
  /-- `11`: touchpad-style read (R103). -/
  | tpRd
deriving DecidableEq, Repr

/-- The two framing conventions (R8, "Style"). -/
inductive Style where
  /-- "Masked-high read/write". -/
  | imu
  /-- "Command-byte read/write", the touchpad's. -/
  | tp
deriving DecidableEq, Repr

/-- Where the host presents an instruction's 16 bits: `CMD` for format C, the converter's input for format V
(R61: "`CVT` does not go through `CMD`"). -/
inductive Port where
  /-- A write of the word to register `0x00` (R143). -/
  | cmd
  /-- The converter port (R145). -/
  | converter
deriving DecidableEq, Repr

/-- One constructor per row of the opcode table. -/
inductive Instr where
  /-- `IMU_WR addr, n` (R100). -/
  | imuWr (addr : BitVec 7) (n : BitVec 5)
  /-- `IMU_RD addr, n` (R101). -/
  | imuRd (addr : BitVec 7) (n : BitVec 5)
  /-- `TP_WR addr, 1` (R102). The `n` field is written out, as in the assembler syntax; only 1 is well-formed. -/
  | tpWr (addr : BitVec 7) (n : BitVec 5)
  /-- `TP_RD addr, n` (R103). -/
  | tpRd (addr : BitVec 7) (n : BitVec 5)
  /-- `CVT x` (R123). -/
  | cvt (x : BitVec 16)
deriving DecidableEq, Repr

/-- The style of a command: bit 15 of its word (R60). -/
def Op.style : Op → Style
  | .imuWr => .imu
  | .imuRd => .imu
  | .tpWr => .tp
  | .tpRd => .tp

/-- Is the command a read: bit 14 of its word (R60). -/
def Op.isRead : Op → Bool
  | .imuWr => false
  | .imuRd => true
  | .tpWr => false
  | .tpRd => true

/-- The port an instruction is presented at (R60, R61). -/
def Instr.port : Instr → Port
  | .imuWr _ _ => .cmd
  | .imuRd _ _ => .cmd
  | .tpWr _ _ => .cmd
  | .tpRd _ _ => .cmd
  | .cvt _ => .converter

/-- The framer command with the given fields (R60). -/
def Instr.command (op : Op) (addr : BitVec 7) (n : BitVec 5) : Instr :=
  match op with
  | .imuWr => .imuWr addr n
  | .imuRd => .imuRd addr n
  | .tpWr => .tpWr addr n
  | .tpRd => .tpRd addr n

end Sys2Proof
end

