-- ==== Sys2Proof/WellFormed.lean ====
section
/-! DEFINITION. Which field values are legal: the clauses of `legal(w)` of spec/30_encoding.md R62 that speak of the
fields `op`, `addr` and `n` (the remaining clause, reserved bits zero, speaks of a word and stands in Decode). -/

namespace Sys2Proof

/-- "`N` = 0 is illegal" (R62). -/
def countNonzero (n : BitVec 5) : Bool := 1 ≤ n.toNat

/-- "`N` above `NMAX` is illegal" (R62). -/
def countInRange (n : BitVec 5) : Bool := n.toNat ≤ Config.nmax

/-- "TP-style: address must fit 5 bits" (R62). -/
def addressFits (op : Op) (addr : BitVec 7) : Bool :=
  match op with
  | .imuWr => true
  | .imuRd => true
  | .tpWr => addr.toNat < 32
  | .tpRd => addr.toNat < 32

/-- "`TP_WR`: exactly one payload byte" (R62). -/
def singlePayload (op : Op) (n : BitVec 5) : Bool :=
  match op with
  | .imuWr => true
  | .imuRd => true
  | .tpWr => n.toNat = 1
  | .tpRd => true

/-- The clauses of `legal(w)` about the fields (R62). -/
def legalFields (op : Op) (addr : BitVec 7) (n : BitVec 5) : Bool :=
  countNonzero n && countInRange n && addressFits op addr && singlePayload op n

/-- An instruction the spec gives: a framer command whose fields are legal (R62), or any `CVT` (R61). -/
def Instr.wellFormed : Instr → Bool
  | .imuWr addr n => legalFields .imuWr addr n
  | .imuRd addr n => legalFields .imuRd addr n
  | .tpWr addr n => legalFields .tpWr addr n
  | .tpRd addr n => legalFields .tpRd addr n
  | .cvt _ => true

end Sys2Proof
end

