-- ==== Sys2Proof/Decode.lean ====
section
/-! DEFINITION. Decoding and encoding (spec/30_encoding.md R60 to R62, R69). A word is read at a port: at `CMD` as format
C, at the converter as format V. Decoding is total; an illegal command word is rejected with the name of a clause of R62
it breaks (which name, where several are broken, is the model's: R187, log entry 11). The encoder follows the decoder. -/

namespace Sys2Proof

/-- A clause of `legal(w)` that a command word breaks (R62). -/
inductive Illegal where
  /-- Bits 6:5 are not `00`. -/
  | reservedBits
  /-- The `n` field is 0. -/
  | zeroCount
  /-- The `n` field is above `NMAX`. -/
  | countAboveNmax
  /-- A TP-style word with a bit of 13:12 set. -/
  | tpAddressTooWide
  /-- A `TP_WR` word whose `n` is not 1. -/
  | tpWriteCount
deriving DecidableEq, Repr

/-- The `op` field, bits 15:14 (R60). -/
def opField (w : Half) : Op :=
  if w.getLsbD 15 then (if w.getLsbD 14 then .tpRd else .tpWr)
  else (if w.getLsbD 14 then .imuRd else .imuWr)

/-- The `addr` field, bits 13:7 (R60). -/
def addrField (w : Half) : BitVec 7 := w.extractLsb' 7 7

/-- The reserved field, bits 6:5 (R60). -/
def reservedField (w : Half) : BitVec 2 := w.extractLsb' 5 2

/-- The `n` field, bits 4:0 (R60). -/
def nField (w : Half) : BitVec 5 := w.extractLsb' 0 5

/-- Decoding at `CMD` (R62, R69). -/
def decodeCmd (w : Half) : Except Illegal Instr :=
  if reservedField w ≠ 0 then .error .reservedBits
  else if !countNonzero (nField w) then .error .zeroCount
  else if !countInRange (nField w) then .error .countAboveNmax
  else if !addressFits (opField w) (addrField w) then .error .tpAddressTooWide
  else if !singlePayload (opField w) (nField w) then .error .tpWriteCount
  else .ok (Instr.command (opField w) (addrField w) (nField w))

/-- Decoding at a port: every pattern at the converter is a `CVT` (R61). -/
def decodeAt (p : Port) (w : Half) : Except Illegal Instr :=
  match p with
  | .cmd => decodeCmd w
  | .converter => .ok (.cvt w)

/-- The two bits of `op` (R60). -/
def Op.bits : Op → BitVec 2
  | .imuWr => 0b00#2
  | .imuRd => 0b01#2
  | .tpWr => 0b10#2
  | .tpRd => 0b11#2

/-- Format C: `op : addr : 00 : n` (R60). -/
def encodeFields (op : Op) (addr : BitVec 7) (n : BitVec 5) : Half :=
  op.bits ++ addr ++ 0b00#2 ++ n

/-- The 16 bits of an instruction, at its port (R60, R61). -/
def encode : Instr → Half
  | .imuWr addr n => encodeFields .imuWr addr n
  | .imuRd addr n => encodeFields .imuRd addr n
  | .tpWr addr n => encodeFields .tpWr addr n
  | .tpRd addr n => encodeFields .tpRd addr n
  | .cvt x => x

/-- Does a row of format C of the opcode table claim the word: its fixed bits under `match` and `mask` (R69). -/
def matchesCommandRow (w : Half) : Bool :=
  w &&& 0xC060#16 == 0x0000#16 || w &&& 0xC060#16 == 0x4000#16 ||
  w &&& 0xF07F#16 == 0x8001#16 || w &&& 0xF060#16 == 0xC000#16

/-- The port at which a word of the opcode table is presented, reading the table by its masks: a word that a row of
format C claims is a command word; any other word matches the row `CVT` alone. The table gives `CVT` no opcode bits
(R61, R69), so the port is no part of the word (log entry 2). -/
def tablePort (w : Half) : Port := if matchesCommandRow w then .cmd else .converter

/-- The instruction the decoder reads from a word of the opcode table; `none` where it rejects the word. -/
def decodeTableWord (nbits w : Nat) : Option Instr :=
  let word : Half := BitVec.ofNat 16 (w % 2 ^ nbits)
  match decodeAt (tablePort word) word with
  | .ok i => some i
  | .error _ => none

end Sys2Proof
end

