-- ==== Sys2Proof/Machine/State.lean ====
section
/-! DEFINITION. The state of the machine as plain data (spec/10_state.md), the agents' inputs and the record of what
they see (R7, R10), the fault and refusal types, and the state after reset (section 9 of the same file). -/

namespace Sys2Proof.Machine

/-- The four phases of the sequencer (R14). -/
inductive Phase where
  /-- No transaction. -/
  | idle
  /-- About to drive chip-select low. -/
  | assert
  /-- Exchanging frame bytes. -/
  | xfer
  /-- About to drive chip-select high. -/
  | release
deriving DecidableEq, Repr

/-- The level a `CsSet` call asks for (R6). -/
inductive Level where
  | low
  | high
deriving DecidableEq, Repr

/-- The environment variable `cs_line` (R32). -/
inductive Line where
  | low
  | high
  | unknown
deriving DecidableEq, Repr

/-- An answer of the environment to the pending call (R57). `CsSet` has no received byte: there `rx` is ignored. -/
inductive Answer where
  /-- `ok`, for an `Xchg` `ok(rx)`. -/
  | ok (rx : Byte)
  /-- `err`, opaque. -/
  | err
deriving DecidableEq, Repr

/-- Did the call succeed. -/
def Answer.isOk : Answer → Bool
  | .ok _ => true
  | .err => false

/-- What the host does next (spec/42_host_access.md). -/
inductive HostOp where
  /-- A write of `v` to host register number `reg`: the `CMD` write, `WRD`, and the ignored writes (R20, R143, R140, R144).
  A data register takes the low 8 bits of `v` (log entry 10). -/
  | write (reg : BitVec 8) (v : Half)
  /-- A read of host register number `reg`: `RDD`, `RDS`, and the reads that return zero (R141 to R144). -/
  | read (reg : BitVec 8)
  /-- The converter port (R145). -/
  | convert (x : Half)
  /-- `CVT le16(D[2k], D[2k+1])`: two `RDD`, the join, the converter (R73, R145). -/
  | convertSample (k : Fin 8)
  /-- `WAIT`: repeat `RDS` until the value read has `DONE` = 1 (R71). -/
  | wait
  /-- The end of "run one command" for a read of `n` bytes: the outcome from the last `RDS` value; if it is `Ok`, `RDD 0`
  to `RDD n-1` (R146). -/
  | readResponse (n : Nat)
  /-- `MOTION_DECODE`: the six conversions of R73, where R126 defines them. -/
  | motionDecode
deriving DecidableEq, Repr

/-- What reaches the block from elsewhere than the host. -/
inductive EnvEvent where
  /-- The environment answers the pending call (R57). -/
  | answer (a : Answer)
  /-- The answer to a call that a `Reset` abandoned comes late; it is discarded (R202, log entry 18). -/
  | lateAnswer (a : Answer)
  /-- The platform raises `Reset` (R200). -/
  | reset
  /-- The platform makes the chip-select line high, as it must after `Reset` and before the first command (R202, R204;
  log entry 19). -/
  | restoreLine
deriving DecidableEq, Repr

/-- One thing that happens, in the order of happening (R10; log entry 1). -/
inductive Input where
  | host (op : HostOp)
  | env (e : EnvEvent)
deriving DecidableEq, Repr

/-- A call of the framer to the environment (R6): `CsSet` with its level, or `Xchg` with its byte. -/
inductive Call where
  | csSet (level : Level)
  | xchg (tx : Byte)
deriving DecidableEq, Repr

/-- What the environment sees (R7): a call with its answer, and a change of the `STATUS` flags; and, of what the host
produces, the `CMD` write of a legal command that was not dropped (R90), so that the events say whose they are. A call is
an event from when it is made, answered or not: one that a `Reset` abandons (R202) stands in the event `reset` with its
answer, if it comes, in a later `lateAnswer`; the one that is pending now is `pendingCall` (log entry 6). -/
inductive TraceEvent where
  /-- The host's `CMD` write of the legal command `i` was accepted. -/
  | command (i : Instr)
  /-- `CsSet(level)` and whether it answered `ok`. -/
  | csSet (level : Level) (ok : Bool)
  /-- `Xchg(tx)` and its answer. -/
  | xchg (tx : Byte) (a : Answer)
  /-- The flags changed; `STATUS` is now `v` (R7, R23). -/
  | status (v : Byte)
  /-- The platform's `Reset`, with the call it abandoned while the environment had not answered it. `Reset` itself makes
  no call (R201). -/
  | reset (abandoned : Option Call)
  /-- The answer to an abandoned call came after all; the block discarded it (R202). It names no call (log entry 24). -/
  | lateAnswer (a : Answer)
deriving DecidableEq, Repr

/-- What the host receives. -/
inductive HostResult where
  /-- The value a read of register number `reg` returned, 8-bit values in the low byte. -/
  | value (reg : BitVec 8) (v : Half)
  /-- The converter's output. -/
  | float (f : Word)
deriving DecidableEq, Repr

/-- The state. The first group is the spec's (R11, R14, R17, R22, R32); the second is the model's own: the inputs to
come, what environment and host have seen, and the counter of free values (log entries 1, 6, 7, 8). -/
structure State where
  /-- The data registers `D[0..NMAX-1]` (R11). -/
  d : Vector Byte Config.nmax
  /-- The phase of the sequencer (R14). -/
  phase : Phase
  /-- The index of the next frame byte (R14). -/
  idx : BitVec 5
  /-- The flag `DONE` (R17). -/
  done : Bool
  /-- The flag `XFER_ERR` (R17). -/
  xferErr : Bool
  /-- The flag `CS_ERR` (R17). -/
  csErr : Bool
  /-- The flag `CMD_ERR` (R17). -/
  cmdErr : Bool
  /-- The latched `op` (R22). -/
  cOp : Op
  /-- The latched `addr` (R22). -/
  cAddr : BitVec 7
  /-- The latched `n` (R22). -/
  cN : BitVec 5
  /-- The environment's chip-select line (R32). -/
  csLine : Line
  /-- The model's: what happens next, in order. -/
  inputs : List Input
  /-- The model's: the accepted commands, the answered calls and the changes of `STATUS`, oldest first (R7). -/
  trace : List TraceEvent
  /-- The model's: what the host has received, oldest first. -/
  hostLog : List HostResult
  /-- The model's: how many free values have been drawn. -/
  draws : Nat
deriving DecidableEq, Repr

/-- The machine stops with no fault: the error outcomes of the block are flags of a next state (R180, R186), and a call
that is never answered is a hang, not an error (R194). So the type has no constructor. -/
inductive Fault where
deriving DecidableEq, Repr

/-- Reasons for which a step has no meaning. -/
inductive Refusal where
  /-- Raised by an arm of `exec` whose instruction has no meaning yet; no arm does. Safe: it proves nothing. -/
  | notModelled (mnemonic : String)
deriving DecidableEq, Repr

/-- The machine right after reset (section 9 of spec/10_state.md): `phase` idle, `idx` 0, the flags 0 (R16, R19). `D` and
the latched command are unspecified (R13, R22): the free values 0 to 15 and `anyWord 0` (log entries 3, 4). The
chip-select line is not driven by reset (R33, R201): `unknown` (log entry 5). No host operation is pending: "after
`Reset` the block does nothing until the host writes `CMD`" (R200). -/
def State.reset : State where
  d := Vector.ofFn fun i => Config.any8 i.val
  phase := .idle
  idx := 0#5
  done := false
  xferErr := false
  csErr := false
  cmdErr := false
  cOp := opField (Config.anyWord 0)
  cAddr := addrField (Config.anyWord 0)
  cN := nField (Config.anyWord 0)
  csLine := .unknown
  inputs := []
  trace := []
  hostLog := []
  draws := Config.nmax

end Sys2Proof.Machine
end

