-- ==== Sys2Proof/Machine/Operands.lean ====
section
/-! DEFINITION. The operand forms of the framer: header and frame length, byte 0, the byte sent at each index
(spec/30_encoding.md R63 to R66); reads and writes of the data registers (spec/10_state.md R11, R12); the byte join
`le16` (spec/41_converter.md R121). -/

namespace Sys2Proof.Machine

/-- `hdr`, the header length (R64). -/
def headerLength (op : Op) : Nat :=
  match op with
  | .imuWr => 1
  | .imuRd => 1
  | .tpWr => 1
  | .tpRd => 2

/-- `L`, the frame length (R64). For a legal command it is at most 18, so no 5-bit sum of R128 overflows. -/
def frameLength (op : Op) (n : BitVec 5) : Nat :=
  match op with
  | .imuWr => n.toNat + 1
  | .imuRd => n.toNat + 1
  | .tpWr => 2
  | .tpRd => n.toNat + 2

/-- The constant OR'd with the address in byte 0 (R63). -/
def headerConstant (op : Op) : Byte :=
  match op with
  | .imuWr => 0x00#8
  | .imuRd => Config.imuRdFlag
  | .tpWr => Config.tpWrOp
  | .tpRd => Config.tpRdOp

/-- Byte 0 of a frame: a bitwise OR of a constant with the address field (R63). -/
def byte0 (op : Op) (addr : BitVec 7) : Byte := headerConstant op ||| addr.setWidth 8

/-- `D[j]`. There is no register `j ≥ NMAX`; a legal command names none (log entry 8), and then the value is free. -/
def dataAt (d : Vector Byte Config.nmax) (j : Nat) : Byte :=
  if h : j < Config.nmax then d[j] else Config.any8 j

/-- `D[j] <- v` (R6). -/
def setData (d : Vector Byte Config.nmax) (j : Nat) (v : Byte) : Vector Byte Config.nmax :=
  d.setIfInBounds j v

/-- `for j in 0 .. n-1: D[j] <- any8` (R94), the draws numbered from `k`. -/
def scrambleData (d : Vector Byte Config.nmax) (n k : Nat) : Vector Byte Config.nmax :=
  Vector.ofFn fun j => if j.val < n then Config.any8 (k + j.val) else d[j.val]

/-- The byte sent at frame index `i` (R65). -/
def frameByte (op : Op) (addr : BitVec 7) (d : Vector Byte Config.nmax) (i : Nat) : Byte :=
  if i = 0 then byte0 op addr
  else match op with
    | .imuWr => dataAt d (i - 1)
    | .imuRd => Config.imuFill
    | .tpWr => dataAt d 0
    | .tpRd => Config.tpFill

/-- The frame of a command: the bytes it sends, index 0 first (R8 "Frame", R66). -/
def frame (op : Op) (addr : BitVec 7) (n : BitVec 5) (d : Vector Byte Config.nmax) : List Byte :=
  (List.range (frameLength op n)).map (frameByte op addr d)

/-- `le16(b0, b1) = b1 : b0`, low byte first (R121). -/
def le16 (b0 b1 : Byte) : Half := (b1.setWidth 16 <<< 8) ||| b0.setWidth 16

end Sys2Proof.Machine
end

