-- ==== Sys2Proof/Machine/Converter.lean ====
section
/-! DEFINITION. The converter (spec/41_converter.md R120 to R123): a function from 16 to 32 bits with no state (R30), and
the meaning of `CVT`, which gives the host the result and touches nothing else (R145). -/

namespace Sys2Proof.Machine

/-- `m <- |v|`, 1 to 32768 (R123). -/
def magnitude (x : Half) : Nat := x.toInt.natAbs

/-- `p`, the position of the highest 1 bit of `m` (R123). -/
def highestBit (m : Nat) : Nat := Nat.log2 m

/-- `i16_to_f32(x)`: the binary32 value numerically equal to `signed_16(x)` (R123). -/
def i16ToF32 (x : Half) : Word :=
  if x.toInt = 0 then 0x00000000#32
  else
    let s : Word := if x.toInt < 0 then 1#32 else 0#32
    let m := magnitude x
    let p := highestBit m
    let e : Word := BitVec.ofNat 32 (p + 127)
    let f : Word := BitVec.ofNat 32 (m - 2 ^ p) <<< (23 - p)
    (s <<< 31) ||| (e <<< 23) ||| f

/-- The converter port: the host takes the 32-bit result (R145). -/
def convert (x : Half) (s : State) : State :=
  { s with hostLog := s.hostLog ++ [.float (i16ToF32 x)] }

/-- `CVT x` (R123). -/
def execCvt (x : Half) (s : State) : Host.Outcome State Fault Refusal :=
  .next (convert x s)

end Sys2Proof.Machine
end

