-- ==== Sys2Proof/Machine/Flags.lean ====
section
/-! DEFINITION. The flags (spec/10_state.md R17), the `STATUS` register (R23) and the outcome it reports (R24). -/

namespace Sys2Proof.Machine

/-- `BUSY = 1` exactly when `phase ≠ IDLE` (R17). -/
def busy (s : State) : Bool := s.phase ≠ .idle

/-- `STATUS`, bits 7:5 zero, then `CMD_ERR`, `CS_ERR`, `XFER_ERR`, `DONE`, `BUSY` (R23). -/
def statusByte (s : State) : Byte :=
  0b000#3 ++ BitVec.ofBool s.cmdErr ++ BitVec.ofBool s.csErr ++ BitVec.ofBool s.xferErr
    ++ BitVec.ofBool s.done ++ BitVec.ofBool (busy s)

/-- The clearing of the four clearable flags by an accepted `CMD` write (R17, R90). -/
def clearFlags (s : State) : State :=
  { s with done := false, xferErr := false, csErr := false, cmdErr := false }

/-- The result of a command (R8 "Outcome", R180). -/
inductive CommandOutcome where
  | ok
  | transferFailed
  | chipSelectFailed
  | cmdRejected
deriving DecidableEq, Repr

/-- The outcome of the last command as a function of `STATUS`, defined only when `DONE = 1` (R24). -/
def outcome (status : Byte) : Option CommandOutcome :=
  if status.getLsbD 1 then
    some (if status.getLsbD 4 then .cmdRejected
      else if status.getLsbD 2 then .transferFailed
      else if status.getLsbD 3 then .chipSelectFailed
      else .ok)
  else none

/-- The code of an error outcome: the number of its `STATUS` bit (R180). -/
def CommandOutcome.code : CommandOutcome → Option Nat
  | .ok => none
  | .transferFailed => some 2
  | .chipSelectFailed => some 3
  | .cmdRejected => some 4

end Sys2Proof.Machine
end

