-- ==== Sys2Proof/Machine/Ops.lean ====
section
/-! DEFINITION. The shared operations: the environment calls (spec/00_scope.md R6, spec/10_state.md R32), raising an
error outcome (R6 `raise`, spec/60_exceptions.md R180 to R186), the four sequencer steps (spec/40_framer_commands.md R91
to R95), the acceptance of a command (R90), and `Reset` (spec/70_reset_and_hazards.md R200 to R202). -/

namespace Sys2Proof.Machine

/-- What happens next, replaced (the model's own field). -/
def setInputs (q : List Input) (s : State) : State := { s with inputs := q }

/-- `pc <- (P, k)` (R6). -/
def setPosition (p : Phase) (k : BitVec 5) (s : State) : State := { s with phase := p, idx := k }

/-- The level a `CsSet(level)` call leaves on the line: `level` if it answered `ok`, else `unknown` (R32). This holds of
the `CsSet(high)` after a failed `CsSet(low)` too: its `ok` makes the line high ("until a later `CsSet` answers `ok`", R182),
although the outcome is then `ChipSelectFailed`, after which R212 calls the line unknown (DEDUCED, log entry 22). -/
def lineAfter (level : Level) (a : Answer) : Line :=
  match a with
  | .ok _ => (match level with
    | .low => .low
    | .high => .high)
  | .err => .unknown

/-- `CsSet(level)`, answered by `a` (R6, R32). -/
def csSet (level : Level) (a : Answer) (s : State) : State :=
  { s with csLine := lineAfter level a, trace := s.trace ++ [.csSet level a.isOk] }

/-- `Xchg(tx)`, answered by `a` (R6). -/
def xchg (tx : Byte) (a : Answer) (s : State) : State :=
  { s with trace := s.trace ++ [.xchg tx a] }

/-- The event of a change of the flags, `STATUS` before and after (R7); none where `STATUS` is the same. -/
def statusChange (before after : Byte) : List TraceEvent :=
  if after = before then [] else [.status after]

/-- The flags' change since `STATUS` was `before`, recorded after the calls made since then (R7). It is used once for each
indivisible action: a framer step (R92 to R95: the call, then the flags), the acceptance or rejection of a command (R90),
a `Reset` (R200). Log entry 6. -/
def recordStatus (before : Byte) (s : State) : State :=
  { s with trace := s.trace ++ statusChange before (statusByte s) }

/-- The error outcomes `raise` takes (R6). -/
inductive ErrorOutcome where
  | transferFailed
  | chipSelectFailed
  | cmdRejected
deriving DecidableEq, Repr

/-- The forced path (R186): from `ASSERT` and `XFER` the next step is `RELEASE`. An error in `RELEASE` changes nothing
else (R189). -/
def forceRelease (s : State) : State :=
  match s.phase with
  | .idle => s
  | .assert => setPosition .release 0#5 s
  | .xfer => setPosition .release 0#5 s
  | .release => s

/-- `raise <Outcome>`: set the flag of R180 and take the forced path of R186. `CmdRejected` sets `DONE` as well and
leaves the phase `IDLE` (R90, R183). Nothing is saved and no mode is switched (R186), so there is no return from it
(R189). -/
def raise (o : ErrorOutcome) (s : State) : State :=
  match o with
  | .transferFailed => forceRelease { s with xferErr := true }
  | .chipSelectFailed => forceRelease { s with csErr := true }
  | .cmdRejected => { s with cmdErr := true, done := true }

/-- The `ASSERT` step, its call answered by `a` (R92). -/
def assertStep (a : Answer) (s : State) : State :=
  match a with
  | .ok _ => setPosition .xfer 0#5 (csSet .low a s)
  | .err => raise .chipSelectFailed (csSet .low a s)

/-- `tx` of the `XFER` step: the frame byte at `idx` of the latched command (R93). -/
def nextByte (s : State) : Byte := frameByte s.cOp s.cAddr s.d s.idx.toNat

/-- `if i >= hdr then D[i - hdr] <- rx` (R93); a byte received at a header index is discarded. -/
def storeReceived (rx : Byte) (s : State) : State :=
  if headerLength s.cOp ≤ s.idx.toNat then
    { s with d := setData s.d (s.idx.toNat - headerLength s.cOp) rx }
  else s

/-- `if i + 1 < L then pc <- (XFER, i + 1) else pc <- (RELEASE, 0)` (R93). -/
def advance (s : State) : State :=
  if s.idx.toNat + 1 < frameLength s.cOp s.cN then setPosition .xfer (s.idx + 1#5) s
  else setPosition .release 0#5 s

/-- `for j in 0 .. N-1: D[j] <- any8` (R94). -/
def loseData (s : State) : State :=
  { s with d := scrambleData s.d s.cN.toNat s.draws, draws := s.draws + s.cN.toNat }

/-- The `XFER` step, its call answered by `a` (R93, R94). The frame byte is read before the received byte is stored
(R12). -/
def xferStep (a : Answer) (s : State) : State :=
  match a with
  | .ok rx => advance (storeReceived rx (xchg (nextByte s) a s))
  | .err => raise .transferFailed (loseData (xchg (nextByte s) a s))

/-- `if r = err then CS_ERR <- 1` of the `RELEASE` step (R95). -/
def releaseError (a : Answer) (s : State) : State :=
  match a with
  | .ok _ => s
  | .err => raise .chipSelectFailed s

/-- The `RELEASE` step, its call answered by `a` (R95). -/
def releaseStep (a : Answer) (s : State) : State :=
  setPosition .idle 0#5 { releaseError a (csSet .high a s) with done := true }

/-- The framer's one step, by phase, when the environment answers its call (R91). In `IDLE` there is no call pending:
an answer is discarded (log entry 1). -/
def framerStep (a : Answer) (s : State) : State :=
  match s.phase with
  | .idle => s
  | .assert => recordStatus (statusByte s) (assertStep a s)
  | .xfer => recordStatus (statusByte s) (xferStep a s)
  | .release => recordStatus (statusByte s) (releaseStep a s)

/-- The pending call (R91); none in `IDLE`. -/
def pendingCall (s : State) : Option Call :=
  match s.phase with
  | .idle => none
  | .assert => some (.csSet .low)
  | .xfer => some (.xchg (nextByte s))
  | .release => some (.csSet .high)

/-- The framer's uninterrupted run (R10): while a call is pending and the next thing to happen is its answer, the
framer takes its step. It stops at `IDLE`, or where the host, the platform or nothing comes next. -/
def runAnswers : List Input → State → State
  | [], s => setInputs [] s
  | .host op :: rest, s => setInputs (.host op :: rest) s
  | .env (.lateAnswer a) :: rest, s => setInputs (.env (.lateAnswer a) :: rest) s
  | .env .reset :: rest, s => setInputs (.env .reset :: rest) s
  | .env .restoreLine :: rest, s => setInputs (.env .restoreLine :: rest) s
  | .env (.answer a) :: rest, s =>
    if s.phase = .idle then setInputs (.env (.answer a) :: rest) s
    else runAnswers rest (framerStep a s)

/-- Latching a legal command: `c_op`, `c_addr`, `c_n`, and `pc <- (ASSERT, 0)` (R90, R22). -/
def latch (op : Op) (addr : BitVec 7) (n : BitVec 5) (s : State) : State :=
  setPosition .assert 0#5 { s with cOp := op, cAddr := addr, cN := n }

/-- The event of the host's accepted `CMD` write (R7; the model's own record, log entry 6). -/
def recordCommand (i : Instr) (s : State) : State :=
  { s with trace := s.trace ++ [.command i] }

/-- Accepting a legal command while idle: the flags are cleared, the command is latched, `BUSY` becomes 1 (R90). -/
def acceptCommand (op : Op) (addr : BitVec 7) (n : BitVec 5) (s : State) : State :=
  recordStatus (statusByte s) (latch op addr n (clearFlags (recordCommand (Instr.command op addr n) s)))

/-- Rejecting an illegal command word: while idle the flags are cleared and `CmdRejected` is raised; while busy the
write is dropped (R90, R183). -/
def rejectCommand (s : State) : State :=
  if s.phase = .idle then recordStatus (statusByte s) (raise .cmdRejected (clearFlags s)) else s

/-- Accepting a command and running its transaction (R90, R91): while busy the write is dropped; an illegal command is
rejected; a legal one clears the flags, is latched, and the framer runs as far as the environment answers (R10). -/
def runCommand (op : Op) (addr : BitVec 7) (n : BitVec 5) (s : State) : State :=
  if s.phase = .idle then
    if legalFields op addr n then runAnswers s.inputs (acceptCommand op addr n s)
    else rejectCommand s
  else s

/-- `Reset` (R200 to R202): the control state of reset, `D` and the latched command unspecified, no environment call,
a transaction in progress abandoned with the line as it is. -/
def resetBlock (s : State) : State :=
  recordStatus (statusByte s) { s with
    d := scrambleData s.d Config.nmax s.draws
    phase := .idle
    idx := 0#5
    done := false
    xferErr := false
    csErr := false
    cmdErr := false
    cOp := opField (Config.anyWord s.draws)
    cAddr := addrField (Config.anyWord s.draws)
    cN := nField (Config.anyWord s.draws)
    trace := s.trace ++ [.reset (pendingCall s)]
    draws := s.draws + Config.nmax }

/-- The platform makes the chip-select line high, so that `P_CS_IDLE` holds (R33). The spec has it do so after `Reset` and
before the first command (R202, R204), which is `IDLE` with `DONE` = 0. In every other state the event does nothing: while
busy the framer owns the line, and after an outcome the line is what the `CsSet` calls left, `unknown` "until a later `CsSet`
answers `ok`" (R182). That it does nothing there is log entry 19 (DESIGN CHOICE). -/
def restoreLine (s : State) : State :=
  if s.phase = .idle ∧ s.done = false then { s with csLine := .high } else s

/-- One event's part in `abandonedCalls`: a late answer takes one from the count. Which of several abandoned calls it answers
the spec leaves open; the model names none and only counts them (DESIGN CHOICE, log entry 24). -/
def abandonedAfter (k : Nat) : TraceEvent → Nat
  | .command _ => k
  | .csSet _ _ => k
  | .xchg _ _ => k
  | .status _ => k
  | .reset none => k
  | .reset (some _) => k + 1
  | .lateAnswer _ => k - 1

/-- How many calls that a `Reset` abandoned are still unanswered (R202). -/
def abandonedCalls (events : List TraceEvent) : Nat := events.foldl abandonedAfter 0

/-- A late answer: the environment's event is recorded (R7), if it has an abandoned call to answer; the block discards it
(R202). -/
def discardAnswer (a : Answer) (s : State) : State :=
  if 0 < abandonedCalls s.trace then { s with trace := s.trace ++ [.lateAnswer a] } else s

/-- What reaches the block from environment and platform. A late answer is discarded whole (R202). Whether the late `ok`
of an abandoned `CsSet` still moves the line (R32) the spec leaves open; here the line stays as it is (DESIGN CHOICE,
log entry 18). -/
def takeEnvironment (e : EnvEvent) (s : State) : State :=
  match e with
  | .answer a => framerStep a s
  | .lateAnswer a => discardAnswer a s
  | .reset => resetBlock s
  | .restoreLine => restoreLine s

end Sys2Proof.Machine
end

