-- ==== Sys2Proof/Machine/Framer.lean ====
section
/-! DEFINITION. The meanings of the four framer commands (spec/40_framer_commands.md R100 to R103). All four share the
sequencer (R91 to R95); what differs, byte 0, header, length and the bytes sent, is by `op` in Machine/Operands.lean. -/

namespace Sys2Proof.Machine

/-- `IMU_WR addr, n` (R100). -/
def execImuWr (addr : BitVec 7) (n : BitVec 5) (s : State) : Host.Outcome State Fault Refusal :=
  .next (runCommand .imuWr addr n s)

/-- `IMU_RD addr, n` (R101). -/
def execImuRd (addr : BitVec 7) (n : BitVec 5) (s : State) : Host.Outcome State Fault Refusal :=
  .next (runCommand .imuRd addr n s)

/-- `TP_WR addr, 1` (R102). -/
def execTpWr (addr : BitVec 7) (n : BitVec 5) (s : State) : Host.Outcome State Fault Refusal :=
  .next (runCommand .tpWr addr n s)

/-- `TP_RD addr, n` (R103). -/
def execTpRd (addr : BitVec 7) (n : BitVec 5) (s : State) : Host.Outcome State Fault Refusal :=
  .next (runCommand .tpRd addr n s)

end Sys2Proof.Machine
end

