-- ==== Sys2Proof/Machine/Dispatch.lean ====
section
/-! DEFINITION. One arm per constructor of Instr. -/

namespace Sys2Proof.Machine

def exec (i : Instr) (s : State) : Host.Outcome State Fault Refusal :=
  match i with
  | .imuWr addr n => Sys2Proof.Machine.execImuWr addr n s
  | .imuRd addr n => Sys2Proof.Machine.execImuRd addr n s
  | .tpWr addr n => Sys2Proof.Machine.execTpWr addr n s
  | .tpRd addr n => Sys2Proof.Machine.execTpRd addr n s
  | .cvt x => Sys2Proof.Machine.execCvt x s

end Sys2Proof.Machine
end

