-- ==== Sys2Proof/Machine/HostAccess.lean ====
section
/-! DEFINITION. The host's operations (spec/42_host_access.md R140 to R145, spec/30_encoding.md R71), the host register
space (spec/10_state.md R20), and the taking of the next input. -/

namespace Sys2Proof.Machine

/-- What a host register number names (R20). -/
inductive HostRegister where
  | cmd
  | status
  | data (i : Fin Config.nmax)
  | reserved
deriving DecidableEq, Repr

/-- The host register space: `0x00` `CMD`, `0x01` `STATUS`, `0x10 + i` `D[i]`, every other number reserved (R20, R144). -/
def hostRegister (reg : BitVec 8) : HostRegister :=
  if reg = 0x00#8 then .cmd
  else if reg = 0x01#8 then .status
  else if h : reg.toNat - 0x10 < Config.nmax then
    (if 0x10 ≤ reg.toNat then .data ⟨reg.toNat - 0x10, h⟩ else .reserved)
  else .reserved

/-- The number of `D[i]` (R20). -/
def dataRegister (i : Fin Config.nmax) : BitVec 8 := BitVec.ofNat 8 (0x10 + i.val)

/-- `WRD i, v` as a register write (R140). -/
def wrd (i : Fin Config.nmax) (v : Byte) : HostOp := .write (dataRegister i) (v.setWidth 16)

/-- `RDD i` as a register read (R141). -/
def rdd (i : Fin Config.nmax) : HostOp := .read (dataRegister i)

/-- `RDS` as a register read (R142). -/
def rds : HostOp := .read 0x01#8

/-- The `CMD` write of `w` (R143). -/
def cmdWrite (w : Half) : HostOp := .write 0x00#8 w

/-- The host operation that presents 16 bits at a port (R143, R145). -/
def present (p : Port) (w : Half) : HostOp :=
  match p with
  | .cmd => cmdWrite w
  | .converter => .convert w

/-- The host receives a value (R141 to R144). -/
def hostReceives (reg : BitVec 8) (v : Half) (s : State) : State :=
  { s with hostLog := s.hostLog ++ [.value reg v] }

/-- `WRD` (R140): in `IDLE` the register is written, otherwise the write is dropped (R26). -/
def writeData (i : Fin Config.nmax) (v : Byte) (s : State) : State :=
  if s.phase = .idle then { s with d := setData s.d i.val v } else s

/-- The byte an `RDD` returns: in `IDLE` the current `D[i]`, otherwise `any8` (R141, R26). -/
def dataValue (i : Fin Config.nmax) (s : State) : Byte :=
  if s.phase = .idle then dataAt s.d i.val else Config.any8 s.draws

/-- `RDD` (R141): the host receives the byte; no register, flag or call. A byte the spec leaves open counts as drawn. -/
def readData (i : Fin Config.nmax) (s : State) : State :=
  { hostReceives (dataRegister i) ((dataValue i s).setWidth 16) s with
    draws := if s.phase = .idle then s.draws else s.draws + 1 }

/-- `RDS` (R142): always the current flags; nothing changes. -/
def readStatus (s : State) : State := hostReceives 0x01#8 ((statusByte s).setWidth 16) s

/-- A host read by register number (R20, R141 to R144): `CMD` and the reserved numbers return zero. -/
def readRegister (reg : BitVec 8) (s : State) : State :=
  match hostRegister reg with
  | .cmd => hostReceives reg 0x0000#16 s
  | .status => readStatus s
  | .data i => readData i s
  | .reserved => hostReceives reg 0x0000#16 s

/-- The `CMD` write (R143, R90): a legal word is an instruction, an illegal one is rejected. -/
def writeCmd (w : Half) (s : State) : Host.Outcome State Fault Refusal :=
  match decodeAt .cmd w with
  | .ok i => exec i s
  | .error _ => .next (rejectCommand s)

/-- The converter port (R145). -/
def presentConverter (x : Half) (s : State) : Host.Outcome State Fault Refusal :=
  match decodeAt .converter x with
  | .ok i => exec i s
  | .error _ => .next s

/-- A host write by register number (R20, R140, R143, R144): `STATUS` and the reserved numbers ignore it. -/
def writeRegister (reg : BitVec 8) (v : Half) (s : State) : Host.Outcome State Fault Refusal :=
  match hostRegister reg with
  | .cmd => writeCmd v s
  | .status => .next s
  | .data i => .next (writeData i (v.setWidth 8) s)
  | .reserved => .next s

/-- `CVT le16(D[2k], D[2k+1])` (R73): two `RDD`, the join, the converter (R145). -/
def convertSample (k : Fin 8) (s : State) : State :=
  let low : Fin Config.nmax := ⟨2 * k.val, by have := k.isLt; simp only [Config.nmax]; omega⟩
  let high : Fin Config.nmax := ⟨2 * k.val + 1, by have := k.isLt; simp only [Config.nmax]; omega⟩
  let s1 := readData low s
  convert (le16 (dataValue low s) (dataValue high s1)) (readData high s1)

/-- What the host received up to and after its last `RDS`: the value of that `RDS`, and the later results (R146). -/
def sinceStatus : List HostResult → Option (Byte × List HostResult)
  | [] => none
  | .float _ :: rest => sinceStatus rest
  | .value reg v :: rest =>
    match sinceStatus rest with
    | some p => some p
    | none => if reg = 0x01#8 then some (v.setWidth 8, rest) else none

/-- "Read the outcome from the last `RDS` value with rule R24" (R146). -/
def readOutcome (log : List HostResult) : Option CommandOutcome :=
  (sinceStatus log).bind fun p => outcome p.1

/-- `RDD 0` to `RDD n-1` (R146). -/
def responseReads (n : Nat) : List HostOp :=
  ((List.finRange Config.nmax).take n).map rdd

/-- The host's next operations put before what is to come. -/
def hostContinues (ops : List HostOp) (s : State) : State :=
  setInputs (ops.map .host ++ s.inputs) s

/-- "The outcome; if it is `Ok`, `RDD 0` to `RDD N-1`" (R146): on every other outcome the host reads no data. -/
def readResponse (n : Nat) (s : State) : State :=
  match readOutcome s.hostLog with
  | some .ok => hostContinues (responseReads n) s
  | some .transferFailed => s
  | some .chipSelectFailed => s
  | some .cmdRejected => s
  | none => s

/-- The six converter operations of `MOTION_DECODE`, in the fixed order (R73). -/
def motionConversions : List HostOp :=
  [.convertSample 0, .convertSample 1, .convertSample 2, .convertSample 3, .convertSample 4, .convertSample 5]

/-- One event's part in `lastCommand`: a later command takes the place of an earlier one, a `Reset` leaves none. -/
def commandAfter (last : Option Instr) : TraceEvent → Option Instr
  | .command i => some i
  | .csSet _ _ => last
  | .xchg _ _ => last
  | .status _ => last
  | .reset _ => none
  | .lateAnswer _ => last

/-- The last command the host issued that was accepted, since the last `Reset`, from the events (R7). The host knows it
from its own writes; it is not the latched command, which the host cannot read (R22). -/
def lastCommand (events : List TraceEvent) : Option Instr := events.foldl commandAfter none

/-- Is `D[0..11]` the response of an `IMU_POLL`, so that `MOTION_DECODE` is defined: the last command was
`IMU_RD 0x22, 12` and its outcome, by `STATUS`, is `Ok` (R126, R73, R24). Log entry 20. -/
def motionReady (s : State) : Bool :=
  outcome (statusByte s) = some .ok && lastCommand s.trace = some (.imuRd Config.imuMotionData 12#5)

/-- `MOTION_DECODE` (R73, R126): the six conversions after a successful `IMU_POLL`; otherwise "the host must not decode",
and it takes no value (R165). Log entry 20. -/
def decodeMotion (s : State) : State :=
  if motionReady s then hostContinues motionConversions s else s

/-- One turn of `WAIT` (R71): `RDS`; if the value read has `DONE` = 1 the loop ends. Otherwise the host reads again, and
between two reads the environment or the platform may act. The host cannot act while it is in its own loop, so a host
operation that stands in the list before the next answer is never performed, and the answers behind it never come: the
loop then goes on for ever (DESIGN CHOICE, log entry 15; the list is the order of happening, log entry 1). -/
def waitTurn (s : State) : State :=
  let r := readStatus s
  if s.done then r
  else match r.inputs with
    | [] => setInputs [.host .wait] r
    | .host op :: rest => setInputs (.host .wait :: .host op :: rest) r
    | .env e :: rest =>
      let t := takeEnvironment e (setInputs rest r)
      setInputs (.host .wait :: t.inputs) t

/-- One host operation (R140 to R146, R71, R73). -/
def hostStep (op : HostOp) (s : State) : Host.Outcome State Fault Refusal :=
  match op with
  | .write reg v => writeRegister reg v s
  | .read reg => .next (readRegister reg s)
  | .convert x => presentConverter x s
  | .convertSample k => .next (convertSample k s)
  | .wait => .next (waitTurn s)
  | .readResponse n => .next (readResponse n s)
  | .motionDecode => .next (decodeMotion s)

/-- One step of the machine: the next thing that happens. With nothing to come the block stays as it is: idle until
the host acts (R200), or waiting for an answer that never comes (R58, R194). -/
def takeInput (s : State) : Host.Outcome State Fault Refusal :=
  match s.inputs with
  | [] => .next s
  | .host op :: rest => hostStep op (setInputs rest s)
  | .env e :: rest => .next (takeEnvironment e (setInputs rest s))

/-- The host operation that runs a word of the opcode table: a `CMD` write, or an operand at the converter. -/
def fetchInput (nbits w : Nat) : Input :=
  let word : Half := BitVec.ofNat 16 (w % 2 ^ nbits)
  .host (present (tablePort word) word)

end Sys2Proof.Machine
end

