-- ==== Sys2Proof/Machine/Step.lean ====
section
/-! DEFINITION. The step, and the placing of an instruction word where the step takes it from. -/

namespace Sys2Proof.Machine

/-- One step of the machine (R10). -/
def step (s : State) : Host.Outcome State Fault Refusal := takeInput s

/-- `s` with the host about to present the instruction's 16 bits at its port (R56: a command reaches the framer only as
a host write to `CMD`; R145 for `CVT`). Log entry 2. -/
def State.withFetchWord (s : State) (nbits w : Nat) : State :=
  setInputs (fetchInput nbits w :: s.inputs) s

end Sys2Proof.Machine
end

