-- ==== Sys2Proof/Machine/Device.lean ====
section
/-! DEFINITION. The meaning of a frame at the device: `MemRead` and `MemWrite` of spec/00_scope.md R6, as a receiver
wired for one style reads a complete frame (spec/30_encoding.md R63, R66, R68). What the device stores or answers is
the device's business (spec/10_state.md R34): the answers stand in the access. -/

namespace Sys2Proof.Machine

/-- What a complete frame means at the device (R6). The space is the style's (R31). -/
inductive DeviceAccess where
  /-- `MemRead(space, addr, n)`, with the bytes the device returned. -/
  | memRead (space : Style) (addr : BitVec 7) (bytes : List Byte)
  /-- `MemWrite(space, addr, n, v)`, with the bytes the device is offered. -/
  | memWrite (space : Style) (addr : BitVec 7) (bytes : List Byte)
deriving DecidableEq, Repr

/-- The access a receiver of the given style reads from a frame: `tx` the bytes sent, `rx` the bytes answered, at the
same indices. The style is not on the wire; "it is fixed by which sensor the framer instance is wired to" (R68). -/
def deviceAccess (style : Style) (tx rx : List Byte) : Option DeviceAccess :=
  match tx with
  | [] => none
  | b :: payload =>
    match style with
    | .imu =>
      if b.getLsbD 7 then some (.memRead .imu (b.setWidth 7) (rx.drop 1))
      else some (.memWrite .imu (b.setWidth 7) payload)
    | .tp =>
      if b.extractLsb' 5 3 = 0b101#3 then some (.memRead .tp ((b.setWidth 5).setWidth 7) (rx.drop 2))
      else if b.extractLsb' 5 3 = 0b100#3 then some (.memWrite .tp ((b.setWidth 5).setWidth 7) payload)
      else none

/-- The calls an event shows: an answered one, or the one a `Reset` abandoned. -/
def callsOf : TraceEvent → List Call
  | .command _ => []
  | .csSet level _ => [.csSet level]
  | .xchg tx _ => [.xchg tx]
  | .status _ => []
  | .reset none => []
  | .reset (some c) => [c]
  | .lateAnswer _ => []

/-- The calls in a list of events, in order. -/
def calls (events : List TraceEvent) : List Call := events.flatMap callsOf

/-- Every call the environment has seen, in order: those of the events and the pending one (R7, R91). -/
def busCalls (s : State) : List Call := calls s.trace ++ (pendingCall s).toList

/-- The byte a call sends. -/
def Call.byte : Call → Option Byte
  | .csSet _ => none
  | .xchg tx => some tx

/-- The bytes sent in a list of events, in order. -/
def sentBytes (events : List TraceEvent) : List Byte := (calls events).filterMap Call.byte

/-- The bytes the framer received in a list of events, in order; a late answer is not received (R202). -/
def receivedBytes : List TraceEvent → List Byte
  | [] => []
  | .command _ :: rest => receivedBytes rest
  | .csSet _ _ :: rest => receivedBytes rest
  | .xchg _ (.ok rx) :: rest => rx :: receivedBytes rest
  | .xchg _ .err :: rest => receivedBytes rest
  | .status _ :: rest => receivedBytes rest
  | .reset _ :: rest => receivedBytes rest
  | .lateAnswer _ :: rest => receivedBytes rest

end Sys2Proof.Machine
end

