-- ==== Sys2Proof/Machine/Pseudo.lean ====
section
/-! DEFINITION. The pseudo-instructions as the host operations they expand to (spec/30_encoding.md R70 to R73), the
composite "run one command" (spec/42_host_access.md R146), and the motion decode (spec/41_converter.md R126). They are
programs of the host, placed in `State.inputs`; none is an instruction of the opcode table. -/

namespace Sys2Proof.Machine

/-- The host operation that issues an instruction, in the assembler syntax of R70. -/
def issue (i : Instr) : HostOp := present i.port (encode i)

/-- The pseudo-instructions (R71, R72, R73). -/
inductive Pseudo where
  | wait
  | imuId
  | imuSetAccel (v : Byte)
  | imuSetGyro (v : Byte)
  | imuSetCommon (v : Byte)
  | imuPoll
  /-- R72 gives it for a `v` with bit 0 set; for another `v` see `Pseudo.expand`. -/
  | tpReset (v : Byte)
  | tpClearFlags
  | tpSetMode (v : Byte)
  | tpSetCfg4 (v : Byte)
  | tpSetCfg5 (v : Byte)
  | tpPollRd
  | motionDecode
deriving DecidableEq, Repr

/-- The expansions of R71 to R73. "Each is followed by `WAIT` in a program" (R72): the `WAIT` is written beside it. The spec
gives `TP_RESET v` only where `v` has bit 0 set and is silent on other `v`; here every `v` has the same expansion, so that
the host writes whatever byte it was given (DESIGN CHOICE, log entry 23). -/
def Pseudo.expand : Pseudo → List HostOp
  | .wait => [.wait]
  | .imuId => [issue (.imuRd Config.imuIdentity 1#5)]
  | .imuSetAccel v => [wrd 0 v, issue (.imuWr Config.imuAccelControl 1#5)]
  | .imuSetGyro v => [wrd 0 v, issue (.imuWr Config.imuGyroControl 1#5)]
  | .imuSetCommon v => [wrd 0 v, issue (.imuWr Config.imuCommonControl 1#5)]
  | .imuPoll => [issue (.imuRd Config.imuMotionData 12#5)]
  | .tpReset v => [wrd 0 v, issue (.tpWr Config.tpMode 1#5)]
  | .tpClearFlags => [wrd 0 0x00#8, issue (.tpWr Config.tpStatus 1#5)]
  | .tpSetMode v => [wrd 0 v, issue (.tpWr Config.tpMode 1#5)]
  | .tpSetCfg4 v => [wrd 0 v, issue (.tpWr Config.tpConfig4 1#5)]
  | .tpSetCfg5 v => [wrd 0 v, issue (.tpWr Config.tpConfig5 1#5)]
  | .tpPollRd => [issue (.tpRd Config.tpTouchData 4#5)]
  | .motionDecode => [.motionDecode]

/-- `WRD 0, p0` to `WRD N-1, p(N-1)` (R146). -/
def payloadWrites (payload : List Byte) : List HostOp :=
  payload.zipIdx.map fun p => .write (BitVec.ofNat 8 (0x10 + p.2)) (p.1.setWidth 16)

/-- "Run one command" for a write (R146): the payload into `D`, the `CMD` write, `WAIT`. -/
def writeProgram (i : Instr) (payload : List Byte) : List HostOp := payloadWrites payload ++ [issue i, .wait]

/-- "Run one command" for a read (R146): the `CMD` write, `WAIT`, the outcome and, if it is `Ok`, the `n` reads. -/
def readProgram (i : Instr) (n : BitVec 5) : List HostOp := [issue i, .wait, .readResponse n.toNat]

/-- "Run one command" (R146) as the document's Transport is called: a legal command, with its whole payload if it is a
write. Other requests have no program: "the document's Transport cannot be called with an ill-formed request". The
precondition `phase = IDLE` is the caller's. -/
def transportProgram (i : Instr) (payload : List Byte) : Option (List HostOp) :=
  match i with
  | .imuWr _ n => if i.wellFormed ∧ payload.length = n.toNat then some (writeProgram i payload) else none
  | .imuRd _ n => if i.wellFormed ∧ payload = [] then some (readProgram i n) else none
  | .tpWr _ n => if i.wellFormed ∧ payload.length = n.toNat then some (writeProgram i payload) else none
  | .tpRd _ n => if i.wellFormed ∧ payload = [] then some (readProgram i n) else none
  | .cvt _ => none

/-- How many response bytes the success value of a command has: a write's has none (R146). -/
def responseCount : Instr → Nat
  | .imuWr _ _ => 0
  | .imuRd _ n => n.toNat
  | .tpWr _ _ => 0
  | .tpRd _ n => n.toNat
  | .cvt _ => 0

/-- The bytes the host received from data registers, in order. -/
def dataBytes : List HostResult → List Byte
  | [] => []
  | .float _ :: rest => dataBytes rest
  | .value reg v :: rest =>
    match hostRegister reg with
    | .cmd => dataBytes rest
    | .status => dataBytes rest
    | .data _ => v.setWidth 8 :: dataBytes rest
    | .reserved => dataBytes rest

/-- The two error kinds of the document's Transport (R24, R146). -/
inductive TransportError where
  | transferFailed
  | chipSelectFailed
deriving DecidableEq, Repr

/-- The result of "run one command" (R146), from what the host received while it ran: the outcome from the last `RDS`
value; on `Ok` the success value, for a read the bytes of the `RDD`s that followed; else one of the two errors. `none`
while the program has not come so far, and for `CmdRejected`, which "has no counterpart". -/
def transportResult (i : Instr) (log : List HostResult) : Option (Except TransportError (List Byte)) :=
  match sinceStatus log with
  | none => none
  | some (status, later) =>
    match outcome status with
    | none => none
    | some .ok =>
      let bytes := (dataBytes later).take (responseCount i)
      if bytes.length = responseCount i then some (.ok bytes) else none
    | some .transferFailed => some (.error .transferFailed)
    | some .chipSelectFailed => some (.error .chipSelectFailed)
    | some .cmdRejected => none

/-- The document's `MotionSample` (R126): angular rate, then linear acceleration. -/
structure MotionSample where
  pitch : Word
  roll : Word
  yaw : Word
  x : Word
  y : Word
  z : Word
deriving DecidableEq, Repr

/-- `MOTION_DECODE` as a function of the twelve response bytes (R126). -/
def motionDecode (d : Vector Byte Config.nmax) : MotionSample where
  pitch := i16ToF32 (le16 d[0] d[1])
  roll := i16ToF32 (le16 d[2] d[3])
  yaw := i16ToF32 (le16 d[4] d[5])
  x := i16ToF32 (le16 d[6] d[7])
  y := i16ToF32 (le16 d[8] d[9])
  z := i16ToF32 (le16 d[10] d[11])

/-- The sample of a motion poll: defined only after an `IMU_POLL` with outcome `Ok` (R126, R73); no sample after any other
command, and none after an error outcome (R165). -/
def motionResult (s : State) : Option MotionSample :=
  if motionReady s then some (motionDecode s.d) else none

end Sys2Proof.Machine
end

