-- ==== Sys2Proof/Safety.lean ====
section
/-! DEFINITION. The terms the claims use: the invariant of every state (spec/10_state.md R14, R18, R21), the chip-select
bracket (spec/40_framer_commands.md R96), the launch premise `P_CS_IDLE` (R33), what a host that respects the hazards
does (spec/70_reset_and_hazards.md R207), and the value of a binary32 pattern (spec/41_converter.md R120). -/

namespace Sys2Proof.Machine

/-- Where a list of events stands in the chip-select bracket of R96. -/
inductive Bracket where
  /-- No transaction has the bus. -/
  | closed
  /-- `CsSet(low)` answered `ok` and no exchange has failed: bytes may be sent. -/
  | opened
  /-- `CsSet(low)` or an exchange failed: only `CsSet(high)` may follow. -/
  | closing
deriving DecidableEq, Repr

/-- The events R96 allows, one at a time: a bracket begins with `CsSet(low)`, bytes are sent only after it answered
`ok`, it ends with one `CsSet(high)`. A command is accepted only outside one (R53, R90). A change of `STATUS` is no bus event.
A `Reset` abandons the bracket with the call that is pending there, which R96 allows in that place (R202). -/
def bracketNext : Bracket → TraceEvent → Option Bracket
  | .closed, .command _ => some .closed
  | .opened, .command _ => none
  | .closing, .command _ => none
  | .closed, .csSet .low true => some .opened
  | .closed, .csSet .low false => some .closing
  | .closed, .csSet .high _ => none
  | .closed, .xchg _ _ => none
  | .opened, .csSet .low _ => none
  | .opened, .csSet .high _ => some .closed
  | .opened, .xchg _ (.ok _) => some .opened
  | .opened, .xchg _ .err => some .closing
  | .closing, .csSet .low _ => none
  | .closing, .csSet .high _ => some .closed
  | .closing, .xchg _ _ => none
  | .closed, .status _ => some .closed
  | .opened, .status _ => some .opened
  | .closing, .status _ => some .closing
  | .closed, .reset none => some .closed
  | .closed, .reset (some (.csSet .low)) => some .closed
  | .closed, .reset (some (.csSet .high)) => none
  | .closed, .reset (some (.xchg _)) => none
  | .opened, .reset none => none
  | .opened, .reset (some (.csSet .low)) => none
  | .opened, .reset (some (.csSet .high)) => some .closed
  | .opened, .reset (some (.xchg _)) => some .closed
  | .closing, .reset none => none
  | .closing, .reset (some (.csSet .low)) => none
  | .closing, .reset (some (.csSet .high)) => some .closed
  | .closing, .reset (some (.xchg _)) => none
  | .closed, .lateAnswer _ => some .closed
  | .opened, .lateAnswer _ => some .opened
  | .closing, .lateAnswer _ => some .closing

/-- The bracket after a list of events; `none` if one of them breaks R96. -/
def bracketAfter : Bracket → List TraceEvent → Option Bracket
  | b, [] => some b
  | b, e :: rest => (bracketNext b e).bind fun b' => bracketAfter b' rest

/-- The brackets a phase may stand in. -/
def bracketFits (p : Phase) (b : Bracket) : Bool :=
  match p, b with
  | .idle, .closed => true
  | .assert, .closed => true
  | .xfer, .opened => true
  | .release, .opened => true
  | .release, .closing => true
  | .idle, .opened => false
  | .idle, .closing => false
  | .assert, .opened => false
  | .assert, .closing => false
  | .xfer, .closed => false
  | .xfer, .closing => false
  | .release, .closed => false

/-- The position is one R14 allows: `idx < L` in `XFER`, 0 in every other phase. -/
def positionInvariant (s : State) : Prop :=
  (s.phase = .xfer → s.idx.toNat < frameLength s.cOp s.cN) ∧ (s.phase ≠ .xfer → s.idx = 0#5)

/-- While the framer is busy the latched command is a legal one (R21, R22). -/
def latchInvariant (s : State) : Prop := s.phase ≠ .idle → legalFields s.cOp s.cAddr s.cN = true

/-- The flag invariants of R18, clause by clause. -/
def flagInvariant (s : State) : Prop :=
  (busy s = true → s.done = false ∧ s.cmdErr = false) ∧
  (s.cmdErr = true → s.done = true ∧ s.xferErr = false ∧ s.csErr = false) ∧
  ((s.xferErr = true ∨ s.csErr = true) → busy s = false → s.done = true)

/-- No error is recorded before its step: none in `ASSERT` and `XFER`, at most one in `RELEASE` (R92 to R94, R187). -/
def errorInvariant (s : State) : Prop :=
  ((s.phase = .assert ∨ s.phase = .xfer) → s.xferErr = false ∧ s.csErr = false) ∧
  (s.phase = .release → ¬(s.xferErr = true ∧ s.csErr = true))

/-- The calls made so far obey R96, and the phase stands where the bracket does. -/
def bracketInvariant (s : State) : Prop :=
  ∃ b, bracketAfter .closed s.trace = some b ∧ bracketFits s.phase b = true

/-- Bytes are exchanged only with the line low (R50, R96). -/
def lineInvariant (s : State) : Prop := s.phase = .xfer → s.csLine = .low

/-- The invariant of the machine. -/
def invariant (s : State) : Prop :=
  positionInvariant s ∧ latchInvariant s ∧ flagInvariant s ∧ errorInvariant s ∧ bracketInvariant s ∧ lineInvariant s

/-- The launch premise `P_CS_IDLE`: the line is high (R33). -/
def chipSelectIdle (s : State) : Prop := s.csLine = .high

/-- "`cs_line = low` holds exactly from each `ASSERT` step to the following `RELEASE` step" (R96): the line is high
before the `ASSERT` step and after the `RELEASE` step, low between them. -/
def lineFollowsPhase (s : State) : Prop :=
  ((s.phase = .idle ∨ s.phase = .assert) → s.csLine = .high) ∧
  ((s.phase = .xfer ∨ s.phase = .release) → s.csLine = .low)

/-- An event other than a failed `CsSet` call and a `Reset`: the premise of R96's second half. -/
def soundEvent : TraceEvent → Bool
  | .command _ => true
  | .csSet _ ok => ok
  | .xchg _ _ => true
  | .status _ => true
  | .reset _ => false
  | .lateAnswer _ => true

/-- Does the event show a call of the framer (R6, R91), answered or abandoned. -/
def isCall : TraceEvent → Bool
  | .command _ => false
  | .csSet _ _ => true
  | .xchg _ _ => true
  | .status _ => false
  | .reset abandoned => abandoned.isSome
  | .lateAnswer _ => false

/-- How many calls the transaction in progress can still make: `L + 2` in `ASSERT`, the bytes from `idx` on and
`CsSet(high)` in `XFER`, one in `RELEASE` (R91, R97). -/
def callsLeft (s : State) : Nat :=
  match s.phase with
  | .idle => 0
  | .assert => frameLength s.cOp s.cN + 2
  | .xfer => frameLength s.cOp s.cN - s.idx.toNat + 1
  | .release => 1

/-- How many of the inputs are answers to a call. -/
def answerCount : List Input → Nat
  | [] => 0
  | .host _ :: rest => answerCount rest
  | .env (.answer _) :: rest => answerCount rest + 1
  | .env (.lateAnswer _) :: rest => answerCount rest
  | .env .reset :: rest => answerCount rest
  | .env .restoreLine :: rest => answerCount rest

/-- What a reader of the events takes `STATUS` to be: the value of the last change, `0x00` before any (R7, R19). -/
def statusShown : List TraceEvent → Byte :=
  List.foldl (fun shown e => match e with
    | .command _ => shown
    | .csSet _ _ => shown
    | .xchg _ _ => shown
    | .status v => v
    | .reset _ => shown
    | .lateAnswer _ => shown) 0x00#8

/-- What a host that respects R207 may do: in `IDLE` anything, while busy no access to `CMD` or `D[i]`. -/
def hostMay (op : HostOp) (s : State) : Bool :=
  match op with
  | .write reg _ =>
    (match hostRegister reg with
    | .cmd => !busy s
    | .status => true
    | .data _ => !busy s
    | .reserved => true)
  | .read reg =>
    (match hostRegister reg with
    | .cmd => true
    | .status => true
    | .data _ => !busy s
    | .reserved => true)
  | .convert _ => true
  | .convertSample _ => !busy s
  | .wait => true
  | .readResponse _ => !busy s
  | .motionDecode => !busy s

/-- The environment answers `ok(rx)`. -/
def okAnswer (rx : Byte) : Input := .env (.answer (.ok rx))

/-- The environment answers `err`. -/
def errAnswer : Input := .env (.answer .err)

/-- The exchanges of the bytes `tx`, answered `ok` with the bytes `rx`, index by index. -/
def exchanges (tx rx : List Byte) : List TraceEvent := (tx.zip rx).map fun p => .xchg p.1 (.ok p.2)

/-- The state in which a transaction of `op addr, n` started in `s` ends, but for `D[0..n-1]` (R97): idle, the given
`STATUS`, the given calls and no others, the given line, the command latched, `D[n..]` and the host's log as before. -/
def endsTransaction (s t : State) (op : Op) (addr : BitVec 7) (n : BitVec 5) (events : List TraceEvent) (status : Byte)
    (line : Line) (rest : List Input) : Prop :=
  t.phase = .idle ∧ t.idx = 0#5 ∧ statusByte t = status ∧
  t.cOp = op ∧ t.cAddr = addr ∧ t.cN = n ∧
  t.trace = s.trace ++ events ∧ t.csLine = line ∧ t.inputs = rest ∧ t.hostLog = s.hostLog ∧
  ∀ j, n.toNat ≤ j → j < Config.nmax → dataAt t.d j = dataAt s.d j

/-- `D[j] = rx[hdr + j]` for `0 ≤ j < n` (R97). -/
def responseStored (t : State) (hdr n : Nat) (rx : List Byte) : Prop :=
  ∀ j, j < n → rx[hdr + j]? = some (dataAt t.d j)

/-- The answers with which a transaction fails, and the error kind it ends with (R97, R24): `CsSet(low)` fails, or the
exchange at some index, or `CsSet(high)` after all bytes. -/
def failsWith (op : Op) (n : BitVec 5) (answers : List Answer) (e : TransportError) : Prop :=
  (∃ last, answers = [.err, last] ∧ e = .chipSelectFailed) ∨
  (∃ (a0 : Byte) (rx : List Byte) (last : Answer), rx.length < frameLength op n ∧
    answers = .ok a0 :: (rx.map .ok ++ [.err, last]) ∧ e = .transferFailed) ∨
  (∃ (a0 : Byte) (rx : List Byte), rx.length = frameLength op n ∧ answers = .ok a0 :: (rx.map .ok ++ [.err]) ∧
    e = .chipSelectFailed)

/-- The record of the last command agrees with the latched command while that one runs and after it ended. -/
def recordInvariant (s : State) : Prop :=
  (busy s = true ∨ (s.done = true ∧ s.cmdErr = false)) →
    lastCommand s.trace = some (Instr.command s.cOp s.cAddr s.cN)

/-- The floats the host has taken, in order. -/
def floats : List HostResult → List Word
  | [] => []
  | .value _ _ :: rest => floats rest
  | .float f :: rest => f :: floats rest

/-- The value of a binary32 pattern that is zero or a normal number (R120); `none` for the other patterns. -/
def binary32Value (r : Word) : Option ℚ :=
  let e := (r.extractLsb' 23 8).toNat
  let f := (r.extractLsb' 0 23).toNat
  if e = 0 ∧ f = 0 then some 0
  else if 1 ≤ e ∧ e ≤ 254 then
    some ((if r.getLsbD 31 then -1 else 1) * (2 : ℚ) ^ ((e : ℤ) - 127) * (1 + (f : ℚ) / 2 ^ 23))
  else none

end Sys2Proof.Machine
end

