-- ==== Sys2Proof/Certificates/Slice0/Obligations.lean ====
section
/-! DEFINITION. The statements about the machine, from the numbered rules of spec/. `s` is any state: the inputs still to
come, and with them every answer of the environment, are part of it. That `exec` of a command goes on while answers stand
next in the inputs is the model's form of R10's "one uninterrupted run" (log entry 1). Accepted commands and changes of
`STATUS` stand in the trace among the calls (R7, log entry 6). -/

open Sys2Proof Sys2Proof.Machine

/-! ### Reset -/

/-- R16, R19: after reset the position is (`IDLE`, 0) and all flags are 0; "After reset `DONE = 0`". -/
def Obligations.ResetControlState : Prop :=
  State.reset.phase = .idle ∧ State.reset.idx = 0#5 ∧
  busy State.reset = false ∧ State.reset.done = false ∧ State.reset.xferErr = false ∧
  State.reset.csErr = false ∧ State.reset.cmdErr = false ∧ statusByte State.reset = 0x00#8

/-- The invariant holds at reset. -/
def Obligations.ResetSatisfiesInvariant : Prop := Sys2Proof.Machine.invariant State.reset

/-- R201, R202: `Reset`, in any phase, makes the block idle with all flags 0, makes no environment call and leaves the
line as it is; an answer that comes late is discarded, whether the framer is then idle or busy with a new command. The
events `reset`, with the call it abandons, and `lateAnswer` are the model's record (log entry 6); that a late answer leaves
the line as it is too is log entry 18 (DESIGN CHOICE). The third clause, an answer that no call waits for, is log entry 1 (DESIGN CHOICE): no rule speaks of one. -/
def Obligations.PlatformResetAbandonsTransaction : Prop :=
  (∀ (s : State) (rest : List Input), s.inputs = .env .reset :: rest →
    ∃ t, step s = .next t ∧ t.phase = .idle ∧ t.idx = 0#5 ∧ statusByte t = 0x00#8 ∧
      t.csLine = s.csLine ∧ t.trace = s.trace ++ .reset (pendingCall s) :: statusChange (statusByte s) 0x00#8 ∧
      t.inputs = rest ∧ t.hostLog = s.hostLog) ∧
  (∀ (s : State) (a : Answer) (rest : List Input), s.inputs = .env (.lateAnswer a) :: rest →
    ∃ t, step s = .next t ∧ t = { s with inputs := rest, trace := t.trace } ∧
      (0 < abandonedCalls s.trace → t.trace = s.trace ++ [.lateAnswer a]) ∧
      (abandonedCalls s.trace = 0 → t.trace = s.trace)) ∧
  (∀ (s : State) (a : Answer) (rest : List Input), s.phase = .idle → s.inputs = .env (.answer a) :: rest →
    step s = .next { s with inputs := rest })

/-- R202, R204: the platform can make the line high after `Reset` and before the first command (`IDLE` with `DONE` = 0), so
that `P_CS_IDLE` holds, and that changes nothing else. In every other state the event does nothing (log entry 19, DESIGN
CHOICE); so after `ChipSelectFailed` the line stays unknown until a `CsSet` answers `ok` (R182). -/
def Obligations.PlatformRestoresLine : Prop :=
  ∀ (s : State) (rest : List Input), s.inputs = .env .restoreLine :: rest →
    (s.phase = .idle → s.done = false →
      ∃ t, step s = .next t ∧ chipSelectIdle t ∧ t = { s with inputs := rest, csLine := .high }) ∧
    ((s.phase ≠ .idle ∨ s.done = true) → step s = .next { s with inputs := rest })

/-! ### The host's operations -/

/-- R142: `RDS` returns the current flags in every phase and changes nothing (the host's own log apart). -/
def Obligations.StatusReadChangesNothing : Prop :=
  ∀ (s : State) (rest : List Input), s.inputs = .host rds :: rest →
    step s = .next { s with inputs := rest, hostLog := s.hostLog ++ [.value 0x01#8 ((statusByte s).setWidth 16)] }

/-- R23: the places of the five flags in `STATUS`; bits 7:5 read as zero. -/
def Obligations.StatusBitPlaces : Prop :=
  ∀ s : State,
    (statusByte s).getLsbD 0 = decide (s.phase ≠ .idle) ∧ (statusByte s).getLsbD 1 = s.done ∧
    (statusByte s).getLsbD 2 = s.xferErr ∧ (statusByte s).getLsbD 3 = s.csErr ∧
    (statusByte s).getLsbD 4 = s.cmdErr ∧ (statusByte s).extractLsb' 5 3 = 0b000#3

/-- R24: the outcome as a function of `STATUS`, defined only when `DONE = 1`. -/
def Obligations.OutcomeReportsFirstError : Prop :=
  ∀ s : State,
    (s.done = false → outcome (statusByte s) = none) ∧
    (s.done = true → s.cmdErr = true → outcome (statusByte s) = some .cmdRejected) ∧
    (s.done = true → s.cmdErr = false → s.xferErr = true → outcome (statusByte s) = some .transferFailed) ∧
    (s.done = true → s.cmdErr = false → s.xferErr = false → s.csErr = true →
      outcome (statusByte s) = some .chipSelectFailed) ∧
    (s.done = true → s.cmdErr = false → s.xferErr = false → s.csErr = false → outcome (statusByte s) = some .ok)

/-- R140: `WRD i, v` writes `D[i]` while idle and nothing otherwise; no flag, no bus event. -/
def Obligations.HostWritesDataRegister : Prop :=
  ∀ (s : State) (i : Fin Config.nmax) (v : Byte) (rest : List Input), s.inputs = .host (wrd i v) :: rest →
    (s.phase = .idle → ∃ t, step s = .next t ∧ t = { s with inputs := rest, d := t.d } ∧
      t.d[i] = v ∧ ∀ j : Fin Config.nmax, j ≠ i → t.d[j] = s.d[j]) ∧
    (s.phase ≠ .idle → step s = .next { s with inputs := rest })

/-- R141: `RDD i` returns `D[i]` while idle and an unconstrained byte otherwise; nothing else changes (the host's log and
the count of free values apart). -/
def Obligations.HostReadsDataRegister : Prop :=
  ∀ (s : State) (i : Fin Config.nmax) (rest : List Input), s.inputs = .host (rdd i) :: rest →
    (s.phase = .idle →
      step s = .next { s with inputs := rest, hostLog := s.hostLog ++ [.value (dataRegister i) (s.d[i].setWidth 16)] }) ∧
    (s.phase ≠ .idle → ∃ (v : Byte) (k : Nat),
      step s = .next { s with
        inputs := rest, hostLog := s.hostLog ++ [.value (dataRegister i) (v.setWidth 16)], draws := k })

/-- R144: every register number that R20 does not name reads zero and ignores writes. -/
def Obligations.ReservedRegistersReadZero : Prop :=
  ∀ (s : State) (reg : BitVec 8) (rest : List Input),
    reg ≠ 0x00#8 → reg ≠ 0x01#8 → ¬(0x10 ≤ reg.toNat ∧ reg.toNat < 0x10 + Config.nmax) →
    (s.inputs = .host (.read reg) :: rest →
      step s = .next { s with inputs := rest, hostLog := s.hostLog ++ [.value reg 0x0000#16] }) ∧
    (∀ v, s.inputs = .host (.write reg v) :: rest → step s = .next { s with inputs := rest })

/-- R20, R143: a read of `CMD` returns zero, a write of `STATUS` is ignored. -/
def Obligations.CmdReadsZeroAndStatusIgnoresWrites : Prop :=
  ∀ (s : State) (rest : List Input),
    (s.inputs = .host (.read 0x00#8) :: rest →
      step s = .next { s with inputs := rest, hostLog := s.hostLog ++ [.value 0x00#8 0x0000#16] }) ∧
    (∀ v, s.inputs = .host (.write 0x01#8 v) :: rest → step s = .next { s with inputs := rest })

/-- R26: while busy a write to `CMD` or to any `D[i]` changes no state and sets no flag, a read of `D[i]` returns an
unconstrained byte, a read of `STATUS` the current flags. -/
def Obligations.BusyBlockDropsHostWrites : Prop :=
  ∀ (s : State) (rest : List Input), s.phase ≠ .idle →
    (∀ w, s.inputs = .host (cmdWrite w) :: rest → step s = .next { s with inputs := rest }) ∧
    (∀ i v, s.inputs = .host (wrd i v) :: rest → step s = .next { s with inputs := rest }) ∧
    (∀ i, s.inputs = .host (rdd i) :: rest → ∃ (v : Byte) (k : Nat),
      step s = .next { s with
        inputs := rest, hostLog := s.hostLog ++ [.value (dataRegister i) (v.setWidth 16)], draws := k }) ∧
    (s.inputs = .host rds :: rest →
      step s = .next { s with inputs := rest, hostLog := s.hostLog ++ [.value 0x01#8 ((statusByte s).setWidth 16)] })

/-- R56: "Nothing the host does afterwards can change a command in flight": any host operation but `WAIT` (which lets the
environment act) leaves data, position, flags, latched command, line and events of a busy block as they are. What comes
next is as before, but for the host's own operations that a composite one (R73, R146) puts there. -/
def Obligations.HostCannotChangeCommandInFlight : Prop :=
  ∀ (s : State) (op : HostOp) (rest : List Input), s.phase ≠ .idle → op ≠ .wait → s.inputs = .host op :: rest →
    ∃ t, step s = .next t ∧ t = { s with inputs := t.inputs, hostLog := t.hostLog, draws := t.draws } ∧
      ∃ more : List HostOp, t.inputs = more.map .host ++ rest

/-- R145, R123: the converter may be used in any phase; the host gets `i16_to_f32(x)` and nothing of the block changes.
This is where `CVT` completes. -/
def Obligations.ConverterWorksInAnyPhase : Prop :=
  ∀ (s : State) (x : Half),
    exec (.cvt x) s = .next { s with hostLog := s.hostLog ++ [.float (i16ToF32 x)] } ∧
    ∀ rest, s.inputs = .host (.convert x) :: rest →
      step s = .next { s with inputs := rest, hostLog := s.hostLog ++ [.float (i16ToF32 x)] }

/-! ### The converter -/

/-- R123: `CVT x` gives the host `i16_to_f32(x)`, in every state, and reads and writes nothing of the block. Zero gives
`0x00000000`. Otherwise, with `p` the position of the highest 1 bit of `m = |v|`, the sign bit is the sign, the exponent
field `p + 127`, the fraction field `(m - 2^p) << (23 - p)`. Last, the rule's corner cases and its example. -/
def Obligations.ConverterBits : Prop :=
  (∀ (x : Half) (s : State), exec (.cvt x) s = .next { s with hostLog := s.hostLog ++ [.float (i16ToF32 x)] }) ∧
  (∀ x : Half, x.toInt = 0 → i16ToF32 x = 0x00000000#32) ∧
  (∀ (x : Half) (p : Nat), 2 ^ p ≤ x.toInt.natAbs → x.toInt.natAbs < 2 ^ (p + 1) →
    (i16ToF32 x).getLsbD 31 = decide (x.toInt < 0) ∧
    ((i16ToF32 x).extractLsb' 23 8).toNat = p + 127 ∧
    ((i16ToF32 x).extractLsb' 0 23).toNat = (x.toInt.natAbs - 2 ^ p) * 2 ^ (23 - p)) ∧
  i16ToF32 0x0000#16 = 0x00000000#32 ∧ i16ToF32 0x8000#16 = 0xC7000000#32 ∧ i16ToF32 0x7FFF#16 = 0x46FFFE00#32 ∧
  i16ToF32 0xFFFF#16 = 0xBF800000#32 ∧ i16ToF32 0x0001#16 = 0x3F800000#32 ∧ i16ToF32 0x0064#16 = 0x42C80000#32

/-- R124 (a): the binary32 value of the result is exactly the two's-complement value of the input. -/
def Obligations.ConverterIsExact : Prop :=
  ∀ x : Half, binary32Value (i16ToF32 x) = some (x.toInt : ℚ)

/-- R124 (b), (c): different inputs give different results, and the order of values is kept. -/
def Obligations.ConverterInjectiveAndOrdered : Prop :=
  (∀ x y : Half, i16ToF32 x = i16ToF32 y → x = y) ∧
  ∀ (x y : Half) (p q : ℚ), binary32Value (i16ToF32 x) = some p → binary32Value (i16ToF32 y) = some q →
    (x.toInt < y.toInt ↔ p < q)

/-- R124 (d), (e), (f): negation flips bit 31 alone (0 and -32768 apart); no subnormal, infinity, NaN or -0; the exponent
field of a result is 0 with a zero fraction, or 127 to 142; the low 8 bits are zero. -/
def Obligations.ConverterResultShape : Prop :=
  (∀ x : Half, x ≠ 0x0000#16 → x ≠ 0x8000#16 → i16ToF32 (-x) = i16ToF32 x ^^^ 0x80000000#32) ∧
  (∀ x : Half, i16ToF32 x = 0x00000000#32 ∨
    (127 ≤ ((i16ToF32 x).extractLsb' 23 8).toNat ∧ ((i16ToF32 x).extractLsb' 23 8).toNat ≤ 141 ∧
      ((i16ToF32 x).extractLsb' 0 23).toNat % 2 ^ (23 - (((i16ToF32 x).extractLsb' 23 8).toNat - 127)) = 0) ∨
    i16ToF32 x = 0xC7000000#32) ∧
  (∀ x : Half, i16ToF32 x ≠ 0x80000000#32) ∧
  ∀ x : Half, (i16ToF32 x).extractLsb' 0 8 = 0x00#8

/-- R121: `le16(b0, b1)` is `b1 : b0`, the first byte low. -/
def Obligations.LittleEndianJoin : Prop :=
  (∀ b0 b1 : Byte, le16 b0 b1 = b1 ++ b0 ∧ (le16 b0 b1).toNat = 256 * b1.toNat + b0.toNat) ∧
  le16 0x64#8 0x00#8 = 0x0064#16 ∧ le16 0x9C#8 0xFF#8 = 0xFF9C#16

/-- R73, R126: `MOTION_DECODE` after an `IMU_RD 0x22, 12` with outcome `Ok` gives the host the six floats of the sample in
the fixed order, each from its own two bytes, and changes nothing of the block. After any other command, and after any
outcome but `Ok`, the host decodes nothing. The form of the guard is log entry 20. -/
def Obligations.MotionDecodeGivesSixFloats : Prop :=
  ∀ (s : State) (rest : List Input), s.inputs = Pseudo.motionDecode.expand.map .host ++ rest →
    (s.phase = .idle → outcome (statusByte s) = some .ok → lastCommand s.trace = some (.imuRd 0x22#7 12#5) →
      ∃ t, Host.Core.run core 7 s = .next t ∧ t = { s with inputs := rest, hostLog := t.hostLog } ∧
        floats t.hostLog = floats s.hostLog ++
          [i16ToF32 (le16 s.d[0] s.d[1]), i16ToF32 (le16 s.d[2] s.d[3]), i16ToF32 (le16 s.d[4] s.d[5]),
           i16ToF32 (le16 s.d[6] s.d[7]), i16ToF32 (le16 s.d[8] s.d[9]), i16ToF32 (le16 s.d[10] s.d[11])] ∧
        motionResult s = some (motionDecode s.d)) ∧
    ((outcome (statusByte s) ≠ some .ok ∨ lastCommand s.trace ≠ some (.imuRd 0x22#7 12#5)) →
      step s = .next { s with inputs := rest } ∧ motionResult s = none)

/-- The record that `MOTION_DECODE` goes by (log entry 20) is true: while a command runs, and after it has ended, it names
the command the framer latched (R22, R126). It holds at reset, and every step keeps it. -/
def Obligations.RecordedCommandIsTheLatchedOne : Prop :=
  recordInvariant State.reset ∧
  ∀ s t : State, recordInvariant s → step s = .next t → recordInvariant t

/-! ### Encoding -/

/-- Decoding the encoding of any well-formed instruction, at its port, gives it back. -/
def Obligations.DecodeOfEncode : Prop :=
  ∀ i : Instr, i.wellFormed = true → decodeAt i.port (encode i) = .ok i

/-- Each word has one meaning at each port: what decodes is well-formed, belongs to the port, and encodes to the word. -/
def Obligations.EncodeOfDecode : Prop :=
  ∀ (p : Port) (w : Half) (i : Instr), decodeAt p w = .ok i → i.wellFormed = true ∧ i.port = p ∧ encode i = w

/-- R62: the predicate `legal(w)`, bit by bit, is exactly what the decoder accepts at `CMD`. -/
def Obligations.LegalWordsAreThoseDecoded : Prop :=
  ∀ w : Half, (∃ i, decodeAt .cmd w = .ok i) ↔
    (w.extractLsb' 5 2 = 0b00#2 ∧ 1 ≤ (w.extractLsb' 0 5).toNat ∧ (w.extractLsb' 0 5).toNat ≤ 16 ∧
      (w.getLsbD 15 = false ∨ w.extractLsb' 12 2 = 0b00#2) ∧
      (w.extractLsb' 14 2 ≠ 0b10#2 ∨ (w.extractLsb' 0 5).toNat = 1))

/-- Words written out from R60 and R69: one of each row, and one of each clause of R62 broken. -/
def Obligations.SampleWordsDecode : Prop :=
  decodeAt .cmd 0x0801#16 = .ok (.imuWr 0x10#7 1#5) ∧ decodeAt .cmd 0x510C#16 = .ok (.imuRd 0x22#7 12#5) ∧
  decodeAt .cmd 0x8101#16 = .ok (.tpWr 0x02#7 1#5) ∧ decodeAt .cmd 0xCA04#16 = .ok (.tpRd 0x14#7 4#5) ∧
  decodeAt .converter 0x8000#16 = .ok (.cvt 0x8000#16) ∧
  decodeAt .cmd 0x512C#16 = .error .reservedBits ∧ decodeAt .cmd 0x5100#16 = .error .zeroCount ∧
  decodeAt .cmd 0x5111#16 = .error .countAboveNmax ∧ decodeAt .cmd 0xD004#16 = .error .tpAddressTooWide ∧
  decodeAt .cmd 0x8102#16 = .error .tpWriteCount

/-- R72: the command words of the pseudo-instructions. `TP_RESET v` for a `v` with bit 0 clear is log entry 23 (DESIGN
CHOICE). -/
def Obligations.PseudoInstructionsExpand : Prop :=
  Pseudo.imuId.expand = [cmdWrite 0x4781#16] ∧
  (∀ v, (Pseudo.imuSetAccel v).expand = [wrd 0 v, cmdWrite 0x0801#16]) ∧
  (∀ v, (Pseudo.imuSetGyro v).expand = [wrd 0 v, cmdWrite 0x0881#16]) ∧
  (∀ v, (Pseudo.imuSetCommon v).expand = [wrd 0 v, cmdWrite 0x0981#16]) ∧
  Pseudo.imuPoll.expand = [cmdWrite 0x510C#16] ∧
  (∀ v, (Pseudo.tpReset v).expand = [wrd 0 v, cmdWrite 0x8181#16]) ∧
  Pseudo.tpClearFlags.expand = [wrd 0 0x00#8, cmdWrite 0x8101#16] ∧
  (∀ v, (Pseudo.tpSetMode v).expand = [wrd 0 v, cmdWrite 0x8181#16]) ∧
  (∀ v, (Pseudo.tpSetCfg4 v).expand = [wrd 0 v, cmdWrite 0x8201#16]) ∧
  (∀ v, (Pseudo.tpSetCfg5 v).expand = [wrd 0 v, cmdWrite 0x8281#16]) ∧
  Pseudo.tpPollRd.expand = [cmdWrite 0xCA04#16]

/-- R63, R64, R65: byte 0, header and frame length with their range, and the byte sent at each index of the frame. The
bytes after byte 0 are R65's; the filler of an `IMU_RD` is stated as the parameter `IMU_FILL`, whose value `0x00` is the
choice of D4 (log entry 9), as is the 18 of `NMAX + 2` the choice of D3. -/
def Obligations.FrameTables : Prop :=
  (∀ addr : BitVec 7, byte0 .imuWr addr = 0x00#8 ||| addr.setWidth 8 ∧ byte0 .imuRd addr = 0x80#8 ||| addr.setWidth 8 ∧
    byte0 .tpWr addr = 0x80#8 ||| addr.setWidth 8 ∧ byte0 .tpRd addr = 0xA0#8 ||| addr.setWidth 8) ∧
  (headerLength .imuWr = 1 ∧ headerLength .imuRd = 1 ∧ headerLength .tpWr = 1 ∧ headerLength .tpRd = 2) ∧
  (∀ n : BitVec 5, frameLength .imuWr n = n.toNat + 1 ∧ frameLength .imuRd n = n.toNat + 1 ∧ frameLength .tpWr n = 2 ∧
    frameLength .tpRd n = n.toNat + 2) ∧
  (∀ op addr n, legalFields op addr n = true → 2 ≤ frameLength op n ∧ frameLength op n ≤ 18 ∧
    frameLength op n = headerLength op + n.toNat) ∧
  ∀ (addr : BitVec 7) (d : Vector Byte Config.nmax),
    (∀ op, frameByte op addr d 0 = byte0 op addr) ∧
    (∀ j : Fin Config.nmax, frameByte .imuWr addr d (j.val + 1) = d[j]) ∧
    (∀ i, 1 ≤ i → frameByte .imuRd addr d i = Config.imuFill) ∧
    frameByte .tpWr addr d 1 = d[0] ∧
    (∀ i, 1 ≤ i → frameByte .tpRd addr d i = 0xFC#8)

/-! ### The step and the instructions -/

/-- Presenting a word that decodes to `i` at its port runs `i`: the step is `exec i` on the state with the word taken
(R143, R145). The second clause is the model's choice (log entry 2, DESIGN CHOICE): `State.withFetchWord` presents a word
of the table at the port the table's masks give it, and `decodeTableWord` reads it there. -/
def Obligations.StepRunsDecodedInstruction : Prop :=
  (∀ (s : State) (p : Port) (w : Half) (i : Instr) (rest : List Input), s.inputs = .host (present p w) :: rest →
    decodeAt p w = .ok i → step s = exec i { s with inputs := rest }) ∧
  ∀ (s : State) (w : Half) (i : Instr), decodeTableWord 16 w.toNat = some i →
    step (s.withFetchWord 16 w.toNat) = exec i s

/-- No instruction and no step stops the machine: the error outcomes are states (R180), a call never answered is a hang
(R194). -/
def Obligations.EveryStepAnswersNext : Prop :=
  (∀ (i : Instr) (s : State), ∃ t, exec i s = .next t) ∧ ∀ s : State, ∃ t, step s = .next t

/-- R90: the three cases of a `CMD` write. While busy it is dropped. While idle the four flags are cleared; an illegal
word then sets `CMD_ERR` and `DONE`; a legal one is latched, with the position (`ASSERT`, 0), where the framer waits for
the environment (here the next input is no answer). -/
def Obligations.CommandWriteCases : Prop :=
  ∀ (s : State) (w : Half) (rest : List Input), s.inputs = .host (cmdWrite w) :: rest →
    (∀ a tail, rest ≠ .env (.answer a) :: tail) →
    (s.phase ≠ .idle → step s = .next { s with inputs := rest }) ∧
    (s.phase = .idle → (∃ e, decodeAt .cmd w = .error e) →
      step s = .next { s with
        inputs := rest, done := true, xferErr := false, csErr := false, cmdErr := true,
        trace := s.trace ++ statusChange (statusByte s) 0x12#8 }) ∧
    (s.phase = .idle → (∃ i, decodeAt .cmd w = .ok i) →
      step s = .next { s with
        inputs := rest, done := false, xferErr := false, csErr := false, cmdErr := false,
        cOp := opField w, cAddr := w.extractLsb' 7 7, cN := w.extractLsb' 0 5, phase := .assert, idx := 0#5,
        trace := s.trace ++ [.command (Instr.command (opField w) (w.extractLsb' 7 7) (w.extractLsb' 0 5)),
          .status 0x01#8] })

/-- R183: an illegal word written while idle clears the flags, then sets `CMD_ERR` and `DONE`; no bus event; `D`, the
latched command and the phase unchanged; whatever comes next. -/
def Obligations.IllegalWordIsRejected : Prop :=
  ∀ (s : State) (w : Half) (e : Illegal) (rest : List Input), s.phase = .idle →
    s.inputs = .host (cmdWrite w) :: rest → decodeAt .cmd w = .error e →
    step s = .next { s with
      inputs := rest, done := true, xferErr := false, csErr := false, cmdErr := true,
      trace := s.trace ++ statusChange (statusByte s) 0x12#8 }

/-- An ill-formed command term acts as the illegal word it encodes to, with the effect R90 and R183 give that word: this
reading of a term is log entry 16 (DEDUCED). Any command issued while busy is dropped (R90). -/
def Obligations.IllFormedCommandIsRejected : Prop :=
  ∀ (op : Op) (addr : BitVec 7) (n : BitVec 5) (s : State),
    (s.phase = .idle → (Instr.command op addr n).wellFormed = false →
      exec (Instr.command op addr n) s =
        .next { s with
          done := true, xferErr := false, csErr := false, cmdErr := true,
          trace := s.trace ++ statusChange (statusByte s) 0x12#8 }) ∧
    (s.phase ≠ .idle → exec (Instr.command op addr n) s = .next s)

/-! ### The sequencer -/

/-- R92: the `ASSERT` step; the line is R32's. Where it sets `CS_ERR` (bit 3), that change of `STATUS` follows the call (R7). -/
def Obligations.AssertStepRule : Prop :=
  ∀ (s : State) (rest : List Input), s.phase = .assert →
    (∀ rx, s.inputs = okAnswer rx :: rest → step s = .next { s with
      inputs := rest, phase := .xfer, idx := 0#5, csLine := .low, trace := s.trace ++ [.csSet .low true] }) ∧
    (s.inputs = errAnswer :: rest → step s = .next { s with
      inputs := rest, phase := .release, idx := 0#5, csErr := true, csLine := .unknown,
      trace := s.trace ++ .csSet .low false :: statusChange (statusByte s) (statusByte s ||| 0x08#8) })

/-- R93: the `XFER` step when the exchange succeeds, for a legal latched command. -/
def Obligations.ExchangeStepRule : Prop :=
  ∀ (s : State) (rx : Byte) (rest : List Input), s.phase = .xfer → legalFields s.cOp s.cAddr s.cN = true →
    s.idx.toNat < frameLength s.cOp s.cN → s.inputs = okAnswer rx :: rest →
    ∃ t, step s = .next t ∧
      t = { s with inputs := rest, d := t.d, phase := t.phase, idx := t.idx, trace := t.trace } ∧
      t.trace = s.trace ++ [.xchg (frameByte s.cOp s.cAddr s.d s.idx.toNat) (.ok rx)] ∧
      (headerLength s.cOp ≤ s.idx.toNat → dataAt t.d (s.idx.toNat - headerLength s.cOp) = rx) ∧
      (∀ j : Fin Config.nmax, s.idx.toNat ≠ headerLength s.cOp + j.val → t.d[j] = s.d[j]) ∧
      (s.idx.toNat + 1 < frameLength s.cOp s.cN → t.phase = .xfer ∧ t.idx.toNat = s.idx.toNat + 1) ∧
      (¬ s.idx.toNat + 1 < frameLength s.cOp s.cN → t.phase = .release ∧ t.idx = 0#5)

/-- R94: the `XFER` step when the exchange fails: `XFER_ERR` (bit 2) is set after the call. Nothing is said of
`D[0..N-1]`: they are unspecified. -/
def Obligations.FailedExchangeStepRule : Prop :=
  ∀ (s : State) (rest : List Input), s.phase = .xfer → s.inputs = errAnswer :: rest →
    ∃ t, step s = .next t ∧
      t = { s with inputs := rest, d := t.d, draws := t.draws, phase := .release, idx := 0#5, xferErr := true,
                   trace := s.trace ++ .xchg (frameByte s.cOp s.cAddr s.d s.idx.toNat) .err ::
                     statusChange (statusByte s) (statusByte s ||| 0x04#8) } ∧
      ∀ j : Fin Config.nmax, s.cN.toNat ≤ j.val → t.d[j] = s.d[j]

/-- R95: the `RELEASE` step: after the call, `CS_ERR` (bit 3) on an `err`, `DONE` set and `BUSY` cleared at once. The line is
R32's: high on `ok`, unknown on `err`. That it is high on `ok` after a failed `CsSet(low)` too is log entry 22 (DEDUCED: R32
and R182 against the general words of R212). -/
def Obligations.ReleaseStepRule : Prop :=
  ∀ (s : State) (rest : List Input), s.phase = .release →
    (∀ rx, s.inputs = okAnswer rx :: rest → step s = .next { s with
      inputs := rest, phase := .idle, idx := 0#5, done := true, csLine := .high,
      trace := s.trace ++ [.csSet .high true, .status (statusByte s &&& 0xFE#8 ||| 0x02#8)] }) ∧
    (s.inputs = errAnswer :: rest → step s = .next { s with
      inputs := rest, phase := .idle, idx := 0#5, done := true, csErr := true, csLine := .unknown,
      trace := s.trace ++ [.csSet .high false, .status (statusByte s &&& 0xFE#8 ||| 0x0A#8)] })

/-- R15: the only moves of the position when the environment answers a busy framer, from a state of the invariant. -/
def Obligations.OnlyTheListedMoves : Prop :=
  ∀ (s t : State) (a : Answer) (rest : List Input), Sys2Proof.Machine.invariant s → s.phase ≠ .idle →
    s.inputs = .env (.answer a) :: rest → step s = .next t →
    (s.phase = .assert ∧ a.isOk = true ∧ t.phase = .xfer ∧ t.idx = 0#5) ∨
    (s.phase = .assert ∧ a.isOk = false ∧ t.phase = .release ∧ t.idx = 0#5) ∨
    (s.phase = .xfer ∧ a.isOk = true ∧ s.idx.toNat + 1 < frameLength s.cOp s.cN ∧ t.phase = .xfer ∧
      t.idx.toNat = s.idx.toNat + 1) ∨
    (s.phase = .xfer ∧ a.isOk = true ∧ s.idx.toNat + 1 = frameLength s.cOp s.cN ∧ t.phase = .release ∧ t.idx = 0#5) ∨
    (s.phase = .xfer ∧ a.isOk = false ∧ t.phase = .release ∧ t.idx = 0#5) ∨
    (s.phase = .release ∧ t.phase = .idle ∧ t.idx = 0#5)

/-- R58, R194: while the environment never answers, a busy framer stays where it is for ever, whatever the host does:
it may read, write, convert and wait. -/
def Obligations.UnansweredCallHangs : Prop :=
  ∀ (s : State) (k : Nat), s.phase ≠ .idle → (∀ x ∈ s.inputs, ∃ op, x = .host op) →
    ∃ t, Host.Core.run core k s = .next t ∧
      t = { s with inputs := t.inputs, hostLog := t.hostLog, draws := t.draws } ∧ (statusByte t).getLsbD 0 = true

/-! ### Whole transactions -/

/-- R100: `IMU_WR addr, n`, every call answered `ok`: the frame is `0x00 | addr` and the payload `D[0..n-1]`, which is what
the device is offered; the bytes received take the payload's place in `D`; the outcome is `Ok`. -/
def Obligations.ImuWriteTransaction : Prop :=
  ∀ (s : State) (addr : BitVec 7) (n : BitVec 5) (a0 a1 : Byte) (rx : List Byte) (rest : List Input),
    s.phase = .idle → 1 ≤ n.toNat → n.toNat ≤ 16 → rx.length = n.toNat + 1 →
    s.inputs = okAnswer a0 :: (rx.map okAnswer ++ okAnswer a1 :: rest) →
    let payload := (List.range n.toNat).map (dataAt s.d)
    let tx := (0x00#8 ||| addr.setWidth 8) :: payload
    ∃ t, exec (.imuWr addr n) s = .next t ∧
      endsTransaction s t .imuWr addr n
        (.command (.imuWr addr n) :: .status 0x01#8 :: .csSet .low true ::
          (exchanges tx rx ++ [.csSet .high true, .status 0x02#8])) 0x02#8 .high rest ∧
      responseStored t 1 n.toNat rx ∧ t.draws = s.draws ∧
      deviceAccess .imu tx rx = some (.memWrite .imu addr payload)

/-- R101: `IMU_RD addr, n`, every call answered `ok`: the frame is `0x80 | addr` and `n` times `0x00`; `D[0..n-1]` hold the
`n` bytes the device returned; the outcome is `Ok`. The filler `0x00` is the choice of D4 (log entry 9). -/
def Obligations.ImuReadTransaction : Prop :=
  ∀ (s : State) (addr : BitVec 7) (n : BitVec 5) (a0 a1 r0 : Byte) (response : List Byte) (rest : List Input),
    s.phase = .idle → 1 ≤ n.toNat → n.toNat ≤ 16 → response.length = n.toNat →
    s.inputs = okAnswer a0 :: okAnswer r0 :: (response.map okAnswer ++ okAnswer a1 :: rest) →
    let tx := (0x80#8 ||| addr.setWidth 8) :: List.replicate n.toNat 0x00#8
    ∃ t, exec (.imuRd addr n) s = .next t ∧
      endsTransaction s t .imuRd addr n
        (.command (.imuRd addr n) :: .status 0x01#8 :: .csSet .low true ::
          (exchanges tx (r0 :: response) ++ [.csSet .high true, .status 0x02#8])) 0x02#8 .high rest ∧
      (List.range n.toNat).map (dataAt t.d) = response ∧ t.draws = s.draws ∧
      deviceAccess .imu tx (r0 :: response) = some (.memRead .imu addr response)

/-- R102: `TP_WR addr, 1`, every call answered `ok`: the frame is `0x80 | addr` and `D[0]`, which is what the device is
offered; the byte received takes its place; the outcome is `Ok`. -/
def Obligations.TouchpadWriteTransaction : Prop :=
  ∀ (s : State) (addr : BitVec 7) (a0 a1 r0 r1 : Byte) (rest : List Input),
    s.phase = .idle → addr.toNat < 32 →
    s.inputs = okAnswer a0 :: okAnswer r0 :: okAnswer r1 :: okAnswer a1 :: rest →
    let tx := [0x80#8 ||| addr.setWidth 8, s.d[0]]
    ∃ t, exec (.tpWr addr 1#5) s = .next t ∧
      endsTransaction s t .tpWr addr 1#5
        (.command (.tpWr addr 1#5) :: .status 0x01#8 :: .csSet .low true ::
          (exchanges tx [r0, r1] ++ [.csSet .high true, .status 0x02#8])) 0x02#8 .high rest ∧
      t.d[0] = r1 ∧ t.draws = s.draws ∧
      deviceAccess .tp tx [r0, r1] = some (.memWrite .tp addr [s.d[0]])

/-- R103: `TP_RD addr, n`, every call answered `ok`: the frame is `0xA0 | addr` and `n + 1` times `0xFC`; the first two
bytes received are discarded, `D[0..n-1]` hold the rest; the outcome is `Ok`. -/
def Obligations.TouchpadReadTransaction : Prop :=
  ∀ (s : State) (addr : BitVec 7) (n : BitVec 5) (a0 a1 r0 r1 : Byte) (response : List Byte) (rest : List Input),
    s.phase = .idle → addr.toNat < 32 → 1 ≤ n.toNat → n.toNat ≤ 16 → response.length = n.toNat →
    s.inputs = okAnswer a0 :: okAnswer r0 :: okAnswer r1 :: (response.map okAnswer ++ okAnswer a1 :: rest) →
    let tx := (0xA0#8 ||| addr.setWidth 8) :: List.replicate (n.toNat + 1) 0xFC#8
    ∃ t, exec (.tpRd addr n) s = .next t ∧
      endsTransaction s t .tpRd addr n
        (.command (.tpRd addr n) :: .status 0x01#8 :: .csSet .low true ::
          (exchanges tx (r0 :: r1 :: response) ++ [.csSet .high true, .status 0x02#8])) 0x02#8 .high rest ∧
      (List.range n.toNat).map (dataAt t.d) = response ∧ t.draws = s.draws ∧
      deviceAccess .tp tx (r0 :: r1 :: response) = some (.memRead .tp addr response)

/-- R97, rows 1 and 6: every `Xchg` and `CsSet(low)` answered `ok`; a failed `CsSet(high)` leaves the response in `D` and
ends with `ChipSelectFailed`. -/
def Obligations.TransactionWithAllBytesExchanged : Prop :=
  ∀ (s : State) (op : Op) (addr : BitVec 7) (n : BitVec 5) (a0 : Byte) (last : Answer) (rx : List Byte)
    (rest : List Input), s.phase = .idle → legalFields op addr n = true → rx.length = frameLength op n →
    s.inputs = okAnswer a0 :: (rx.map okAnswer ++ .env (.answer last) :: rest) →
    ∃ t, exec (Instr.command op addr n) s = .next t ∧
      endsTransaction s t op addr n
        (.command (Instr.command op addr n) :: .status 0x01#8 :: .csSet .low true ::
          (exchanges (frame op addr n s.d) rx ++
            [.csSet .high last.isOk, .status (if last.isOk then 0x02#8 else 0x0A#8)]))
        (if last.isOk then 0x02#8 else 0x0A#8) (if last.isOk then .high else .unknown) rest ∧
      responseStored t (headerLength op) n.toNat rx ∧ t.draws = s.draws

/-- R97, rows 2 and 3: `CsSet(low)` fails; no byte is sent, `D` is unchanged, `CsSet(high)` is still called, and the outcome
is `ChipSelectFailed` whatever it answers. That its `ok` then makes the line high is log entry 22 (DEDUCED). -/
def Obligations.TransactionWithFailedAssert : Prop :=
  ∀ (s : State) (op : Op) (addr : BitVec 7) (n : BitVec 5) (last : Answer) (rest : List Input),
    s.phase = .idle → legalFields op addr n = true → s.inputs = errAnswer :: .env (.answer last) :: rest →
    ∃ t, exec (Instr.command op addr n) s = .next t ∧
      endsTransaction s t op addr n
        [.command (Instr.command op addr n), .status 0x01#8, .csSet .low false, .status 0x09#8,
          .csSet .high last.isOk, .status 0x0A#8] 0x0A#8
        (if last.isOk then .high else .unknown) rest ∧
      t.d = s.d ∧ t.draws = s.draws

/-- R97, rows 4 and 5: the exchange at index `k` fails; bytes after it are never sent; nothing is said of `D[0..n-1]`; the
outcome is `TransferFailed` whatever `CsSet(high)` answers. -/
def Obligations.TransactionWithFailedExchange : Prop :=
  ∀ (s : State) (op : Op) (addr : BitVec 7) (n : BitVec 5) (a0 : Byte) (last : Answer) (rx : List Byte)
    (rest : List Input), s.phase = .idle → legalFields op addr n = true → rx.length < frameLength op n →
    s.inputs = okAnswer a0 :: (rx.map okAnswer ++ errAnswer :: .env (.answer last) :: rest) →
    ∃ t, exec (Instr.command op addr n) s = .next t ∧
      endsTransaction s t op addr n
        (.command (Instr.command op addr n) :: .status 0x01#8 :: .csSet .low true ::
          (exchanges ((frame op addr n s.d).take rx.length) rx ++
          [.xchg (frameByte op addr s.d rx.length) .err, .status 0x05#8, .csSet .high last.isOk,
            .status (if last.isOk then 0x06#8 else 0x0E#8)]))
        (if last.isOk then 0x06#8 else 0x0E#8) (if last.isOk then .high else .unknown) rest

/-- R91: a transaction whose `L + 2` answers stand next in the inputs makes at most `L + 2` calls and ends with the
`RELEASE` step and `DONE`; there is no retry (R51). `PolledTransactionEnds` is the same of any other interleaving. -/
def Obligations.AnsweredTransactionEnds : Prop :=
  ∀ (s : State) (op : Op) (addr : BitVec 7) (n : BitVec 5) (answers : List Answer) (rest : List Input),
    s.phase = .idle → legalFields op addr n = true → answers.length = frameLength op n + 2 →
    s.inputs = answers.map (fun a => .env (.answer a)) ++ rest →
    ∃ t, exec (Instr.command op addr n) s = .next t ∧ t.phase = .idle ∧ t.done = true ∧
      ∃ (events : List TraceEvent) (ok : Bool),
        t.trace = s.trace ++ (events ++ [.csSet .high ok, .status (statusByte t)]) ∧
        (events.filter isCall).length + 1 ≤ frameLength op n + 2

/-- R91, R10: the bound for every interleaving. `callsLeft` is `L + 2` when a command has been accepted; whatever input
comes next to a busy framer (an answer, a poll, any other host operation, a `Reset`), the calls the step makes and those
that are left then are together at most those left before. And where a transaction's answers come among any host
operations but `WAIT`, it ends with the `RELEASE` step and `DONE`. -/
def Obligations.PolledTransactionEnds : Prop :=
  (∀ (s : State) (op : Op) (addr : BitVec 7) (n : BitVec 5),
    callsLeft (acceptCommand op addr n s) = frameLength op n + 2) ∧
  (∀ s t : State, Sys2Proof.Machine.invariant s → s.phase ≠ .idle → step s = .next t →
    ∃ events, t.trace = s.trace ++ events ∧ (events.filter isCall).length + callsLeft t ≤ callsLeft s) ∧
  ∀ s : State, Sys2Proof.Machine.invariant s → s.phase ≠ .idle →
    (∀ x ∈ s.inputs, x ≠ .host .wait ∧ x ≠ .env .reset) → callsLeft s ≤ answerCount s.inputs →
    ∃ (k : Nat) (t : State) (events : List TraceEvent) (ok : Bool), Host.Core.run core k s = .next t ∧
      t.phase = .idle ∧ t.done = true ∧ t.trace = s.trace ++ (events ++ [.csSet .high ok, .status (statusByte t)]) ∧
      (events.filter isCall).length + 1 ≤ callsLeft s

/-- R10, R91: the uninterrupted run of a command is the acceptance of the command followed by single steps of the
framer, one for each answer, at most `L + 2` of them; the inputs may stop or interrupt it anywhere. That `exec` runs on
while answers come next is log entry 1 (DESIGN CHOICE). -/
def Obligations.RunIsSingleSteps : Prop :=
  ∀ (s : State) (op : Op) (addr : BitVec 7) (n : BitVec 5), s.phase = .idle → legalFields op addr n = true →
    ∃ k, k ≤ frameLength op n + 2 ∧
      exec (Instr.command op addr n) s =
        Host.Core.run core k
          { s with done := false, xferErr := false, csErr := false, cmdErr := false,
                   cOp := op, cAddr := addr, cN := n, phase := .assert, idx := 0#5,
                   trace := s.trace ++ [.command (Instr.command op addr n), .status 0x01#8] }

/-- R101, R103: a read command sends and reports the same, call by call and flag by flag, whatever `D` held before: "the
previous content of `D[0..N-1]` is not sent". -/
def Obligations.ReadsDoNotSendData : Prop :=
  ∀ (s : State) (d' : Vector Byte Config.nmax) (op : Op) (addr : BitVec 7) (n : BitVec 5), op.isRead = true →
    ∃ t t', exec (Instr.command op addr n) s = .next t ∧
      exec (Instr.command op addr n) { s with d := d' } = .next t' ∧
      t'.trace = t.trace ∧ statusByte t' = statusByte t ∧ t'.csLine = t.csLine ∧ t'.inputs = t.inputs

/-- R71, R146: a command followed by `WAIT`, every call answered, some of them before the `WAIT` and the others during the
loop, comes to the end of the `WAIT` with the command done. Every value the loop read has `DONE` = 0 but the last, which
has `DONE` = 1 and is `STATUS` as it then is. The bound `L + 4` on the steps counts the turns of `WAIT` as log entry 15
(DESIGN CHOICE) lays them out; R71 says only that the reads are finitely many. -/
def Obligations.WaitEndsWhenCallsAreAnswered : Prop :=
  ∀ (s : State) (op : Op) (addr : BitVec 7) (n : BitVec 5) (before after : List Answer) (rest : List Input),
    s.phase = .idle → legalFields op addr n = true → before.length + after.length = frameLength op n + 2 →
    s.inputs = .host (issue (Instr.command op addr n)) :: (before.map (fun a => .env (.answer a)) ++
      .host .wait :: (after.map (fun a => .env (.answer a)) ++ rest)) →
    ∃ (k : Nat) (t : State) (left : List Answer) (reads : List HostResult), k ≤ frameLength op n + 4 ∧
      Host.Core.run core k s = .next t ∧ t.phase = .idle ∧ t.done = true ∧
      t.inputs = left.map (fun a => .env (.answer a)) ++ rest ∧
      t.hostLog = s.hostLog ++ (reads ++ [.value 0x01#8 ((statusByte t).setWidth 16)]) ∧
      ∀ r ∈ reads, ∃ v : Half, r = .value 0x01#8 v ∧ v.getLsbD 1 = false

/-- R71, R203: a `WAIT` issued on an idle block with `DONE` = 0, as it is when no command has been written since reset,
never ends: each step leaves the block idle, `DONE` 0 and the `WAIT` next, whatever inputs come, and so do any number of
steps. -/
def Obligations.WaitWithoutCommandNeverEnds : Prop :=
  (∀ (s : State) (rest : List Input), s.phase = .idle → s.done = false → s.inputs = .host .wait :: rest →
    ∃ (t : State) (left : List Input), step s = .next t ∧ t.phase = .idle ∧ t.done = false ∧
      t.inputs = .host .wait :: left) ∧
  ∀ (k : Nat) (s : State) (rest : List Input), s.phase = .idle → s.done = false → s.inputs = .host .wait :: rest →
    ∃ (t : State) (left : List Input), Host.Core.run core k s = .next t ∧ t.phase = .idle ∧ t.done = false ∧
      t.inputs = .host .wait :: left

/-! ### One command as the document's Transport runs it -/

/-- R146, a read: the `CMD` write, `WAIT`, and on `Ok` the `N` reads; the host ends with the success value, the `N` bytes
the device returned, and the program is over. Here every call is answered before the `WAIT`. The program with its
conditional reads as one operation, and the result taken from what the host received, are the model's form of R146 (log
entry 21, DEDUCED); the count of `n + 3` steps is log entry 15 (DESIGN CHOICE). -/
def Obligations.RunOneCommandReads : Prop :=
  ∀ (s : State) (op : Op) (addr : BitVec 7) (n : BitVec 5) (a0 a1 : Byte) (rx : List Byte) (rest : List Input),
    s.phase = .idle → op.isRead = true → legalFields op addr n = true → rx.length = frameLength op n →
    s.inputs = .host (issue (Instr.command op addr n)) :: okAnswer a0 :: (rx.map okAnswer ++
      okAnswer a1 :: .host .wait :: .host (.readResponse n.toNat) :: rest) →
    transportProgram (Instr.command op addr n) [] =
      some [issue (Instr.command op addr n), .wait, .readResponse n.toNat] ∧
    ∃ (t : State) (log : List HostResult), Host.Core.run core (n.toNat + 3) s = .next t ∧ t.inputs = rest ∧
      t.phase = .idle ∧ t.hostLog = s.hostLog ++ log ∧
      transportResult (Instr.command op addr n) log = some (.ok (rx.drop (headerLength op)))

/-- R146, a write: `WRD 0, p0` to `WRD N-1, p(N-1)`, the `CMD` write, `WAIT`; the payload is what is sent after byte 0, and
the host ends with the success value, which carries no bytes. Here every call is answered before the `WAIT`. Which requests
have a program, and the result taken from what the host received, are the model's form of R146 (log entry 21, DEDUCED); the
count of `n + 2` steps is log entry 15 (DESIGN CHOICE). -/
def Obligations.RunOneCommandWrites : Prop :=
  ∀ (s : State) (op : Op) (addr : BitVec 7) (n : BitVec 5) (payload : List Byte) (a0 a1 : Byte) (rx : List Byte)
    (rest : List Input), s.phase = .idle → op.isRead = false → legalFields op addr n = true →
    payload.length = n.toNat → rx.length = frameLength op n →
    s.inputs = (payloadWrites payload).map .host ++ .host (issue (Instr.command op addr n)) :: okAnswer a0 ::
      (rx.map okAnswer ++ okAnswer a1 :: .host .wait :: rest) →
    transportProgram (Instr.command op addr n) payload =
      some (payloadWrites payload ++ [issue (Instr.command op addr n), .wait]) ∧
    (payloadWrites payload).length = n.toNat ∧
    (∀ j : Fin Config.nmax, (payloadWrites payload)[j.val]? = payload[j.val]?.map (wrd j)) ∧
    ∃ (t : State) (log : List HostResult), Host.Core.run core (n.toNat + 2) s = .next t ∧ t.inputs = rest ∧
      t.phase = .idle ∧ t.hostLog = s.hostLog ++ log ∧
      sentBytes t.trace = sentBytes s.trace ++ byte0 op addr :: payload ∧
      transportResult (Instr.command op addr n) log = some (.ok [])

/-- R146, R209: a command whose transaction fails, by `CsSet(low)`, by an exchange or by `CsSet(high)`, ends with the error
kind of R24. After a read the host reads no data: the program is over after the `RDS`. A write ends with the same error
kinds. The program's form and the result taken from what the host received are log entry 21 (DEDUCED); the counts of 3 and
`n + 2` steps are log entry 15 (DESIGN CHOICE). -/
def Obligations.RunOneCommandFails : Prop :=
  (∀ (s : State) (op : Op) (addr : BitVec 7) (n : BitVec 5) (answers : List Answer) (e : TransportError)
    (rest : List Input), s.phase = .idle → op.isRead = true → legalFields op addr n = true → failsWith op n answers e →
    s.inputs = .host (issue (Instr.command op addr n)) :: (answers.map (fun a => .env (.answer a)) ++
      .host .wait :: .host (.readResponse n.toNat) :: rest) →
    ∃ (t : State) (status : Half), Host.Core.run core 3 s = .next t ∧ t.inputs = rest ∧ t.phase = .idle ∧
      t.hostLog = s.hostLog ++ [.value 0x01#8 status] ∧
      transportResult (Instr.command op addr n) [.value 0x01#8 status] = some (.error e)) ∧
  ∀ (s : State) (op : Op) (addr : BitVec 7) (n : BitVec 5) (payload : List Byte) (answers : List Answer)
    (e : TransportError) (rest : List Input), s.phase = .idle → op.isRead = false → legalFields op addr n = true →
    payload.length = n.toNat → failsWith op n answers e →
    s.inputs = (payloadWrites payload).map .host ++ .host (issue (Instr.command op addr n)) ::
      (answers.map (fun a => .env (.answer a)) ++ .host .wait :: rest) →
    ∃ (t : State) (status : Half), Host.Core.run core (n.toNat + 2) s = .next t ∧ t.inputs = rest ∧ t.phase = .idle ∧
      t.hostLog = s.hostLog ++ [.value 0x01#8 status] ∧
      transportResult (Instr.command op addr n) [.value 0x01#8 status] = some (.error e)

/-! ### Invariants -/

/-- Every step keeps the invariant: the position stays one R14 allows, a busy framer's latched command is legal, the flag
relations of R18 hold, the calls made obey the bracket of R96, and bytes are exchanged only with the line low. The last
clause rests on two choices of the model: a late answer to an abandoned `CsSet`, coming in a later `XFER`, leaves the line as
it is (log entry 18, DESIGN CHOICE, unsafe), and the platform's restoring of the line does nothing while the framer is busy
(log entry 19, DESIGN CHOICE). -/
def Obligations.StepKeepsTheInvariant : Prop :=
  ∀ s t : State, Sys2Proof.Machine.invariant s → step s = .next t → Sys2Proof.Machine.invariant t

/-- R18, at every state the machine can come to from reset with any inputs; "`XFER_ERR` and `CS_ERR` may both be 1" in one
of them. -/
def Obligations.FlagRelationsInEveryRun : Prop :=
  (∀ (inputs : List Input) (k : Nat) (t : State),
    Host.Core.run core k { State.reset with inputs := inputs } = .next t →
    (busy t = true → t.done = false ∧ t.cmdErr = false) ∧
    (t.cmdErr = true → t.done = true ∧ t.xferErr = false ∧ t.csErr = false) ∧
    ((t.xferErr = true ∨ t.csErr = true) → busy t = false → t.done = true)) ∧
  ∃ (inputs : List Input) (k : Nat) (t : State),
    Host.Core.run core k { State.reset with inputs := inputs } = .next t ∧ t.xferErr = true ∧ t.csErr = true

/-- R96, second half: from `P_CS_IDLE`, the line is low exactly from each `ASSERT` step to the following `RELEASE` step and
high at every idle state, while no `CsSet` call fails and no `Reset` comes. The premise is on the events the step adds, so
it holds as well of a block that was reset, or whose `CsSet` failed, before the platform restored the line (R204). It rests
on two choices of the model: a late answer to an abandoned `CsSet`, be it `ok` or `err`, is not among the events the premise
shuts out and leaves the line as it is (log entry 18, DESIGN CHOICE, unsafe), and the platform's restoring of the line does
nothing while the framer is busy (log entry 19, DESIGN CHOICE). R96 itself speaks of `CsSet` calls that all answer `ok`. -/
def Obligations.LineIsLowExactlyInTheBracket : Prop :=
  (∀ s : State, s.phase = .idle → chipSelectIdle s → lineFollowsPhase s) ∧
  ∀ (s t : State) (events : List TraceEvent), lineFollowsPhase s → step s = .next t → t.trace = s.trace ++ events →
    (∀ e ∈ events, soundEvent e = true) → lineFollowsPhase t

/-- R7: the events show every change of the flags. What a reader of the trace takes `STATUS` to be, from the last change
in it, is what `STATUS` is: after reset, and after every step if it was so before. -/
def Obligations.StatusEventsShowTheRegister : Prop :=
  statusShown State.reset.trace = statusByte State.reset ∧
  ∀ s t : State, statusShown s.trace = statusByte s → step s = .next t → statusShown t.trace = statusByte t

/-- R7, R202: no call is lost. The calls the environment has seen are those of the events and the pending one; whatever a
step does, a `Reset` in the middle of a call included, they are after it what they were before, and perhaps more. -/
def Obligations.NoCallIsLost : Prop :=
  ∀ s t : State, step s = .next t → ∃ more, busCalls t = busCalls s ++ more
end

