-- ==== Sys2Proof/Laws/State.lean ====
section
/-! SUPPORT. One lemma per field per update, so that no later proof unfolds a record update. -/

namespace Sys2Proof.Machine

@[simp] theorem setInputs_d (q : List Input) (s : State) : (setInputs q s).d = s.d := rfl
@[simp] theorem setInputs_phase (q : List Input) (s : State) : (setInputs q s).phase = s.phase := rfl
@[simp] theorem setInputs_idx (q : List Input) (s : State) : (setInputs q s).idx = s.idx := rfl
@[simp] theorem setInputs_done (q : List Input) (s : State) : (setInputs q s).done = s.done := rfl
@[simp] theorem setInputs_xferErr (q : List Input) (s : State) : (setInputs q s).xferErr = s.xferErr := rfl
@[simp] theorem setInputs_csErr (q : List Input) (s : State) : (setInputs q s).csErr = s.csErr := rfl
@[simp] theorem setInputs_cmdErr (q : List Input) (s : State) : (setInputs q s).cmdErr = s.cmdErr := rfl
@[simp] theorem setInputs_cOp (q : List Input) (s : State) : (setInputs q s).cOp = s.cOp := rfl
@[simp] theorem setInputs_cAddr (q : List Input) (s : State) : (setInputs q s).cAddr = s.cAddr := rfl
@[simp] theorem setInputs_cN (q : List Input) (s : State) : (setInputs q s).cN = s.cN := rfl
@[simp] theorem setInputs_csLine (q : List Input) (s : State) : (setInputs q s).csLine = s.csLine := rfl
@[simp] theorem setInputs_inputs (q : List Input) (s : State) : (setInputs q s).inputs = q := rfl
@[simp] theorem setInputs_trace (q : List Input) (s : State) : (setInputs q s).trace = s.trace := rfl
@[simp] theorem setInputs_hostLog (q : List Input) (s : State) : (setInputs q s).hostLog = s.hostLog := rfl
@[simp] theorem setInputs_draws (q : List Input) (s : State) : (setInputs q s).draws = s.draws := rfl

@[simp] theorem setPosition_d (p : Phase) (k : BitVec 5) (s : State) : (setPosition p k s).d = s.d := rfl
@[simp] theorem setPosition_phase (p : Phase) (k : BitVec 5) (s : State) : (setPosition p k s).phase = p := rfl
@[simp] theorem setPosition_idx (p : Phase) (k : BitVec 5) (s : State) : (setPosition p k s).idx = k := rfl
@[simp] theorem setPosition_done (p : Phase) (k : BitVec 5) (s : State) : (setPosition p k s).done = s.done := rfl
@[simp] theorem setPosition_xferErr (p : Phase) (k : BitVec 5) (s : State) : (setPosition p k s).xferErr = s.xferErr := rfl
@[simp] theorem setPosition_csErr (p : Phase) (k : BitVec 5) (s : State) : (setPosition p k s).csErr = s.csErr := rfl
@[simp] theorem setPosition_cmdErr (p : Phase) (k : BitVec 5) (s : State) : (setPosition p k s).cmdErr = s.cmdErr := rfl
@[simp] theorem setPosition_cOp (p : Phase) (k : BitVec 5) (s : State) : (setPosition p k s).cOp = s.cOp := rfl
@[simp] theorem setPosition_cAddr (p : Phase) (k : BitVec 5) (s : State) : (setPosition p k s).cAddr = s.cAddr := rfl
@[simp] theorem setPosition_cN (p : Phase) (k : BitVec 5) (s : State) : (setPosition p k s).cN = s.cN := rfl
@[simp] theorem setPosition_csLine (p : Phase) (k : BitVec 5) (s : State) : (setPosition p k s).csLine = s.csLine := rfl
@[simp] theorem setPosition_inputs (p : Phase) (k : BitVec 5) (s : State) : (setPosition p k s).inputs = s.inputs := rfl
@[simp] theorem setPosition_trace (p : Phase) (k : BitVec 5) (s : State) : (setPosition p k s).trace = s.trace := rfl
@[simp] theorem setPosition_hostLog (p : Phase) (k : BitVec 5) (s : State) : (setPosition p k s).hostLog = s.hostLog := rfl
@[simp] theorem setPosition_draws (p : Phase) (k : BitVec 5) (s : State) : (setPosition p k s).draws = s.draws := rfl

@[simp] theorem csSet_d (l : Level) (a : Answer) (s : State) : (csSet l a s).d = s.d := rfl
@[simp] theorem csSet_phase (l : Level) (a : Answer) (s : State) : (csSet l a s).phase = s.phase := rfl
@[simp] theorem csSet_idx (l : Level) (a : Answer) (s : State) : (csSet l a s).idx = s.idx := rfl
@[simp] theorem csSet_done (l : Level) (a : Answer) (s : State) : (csSet l a s).done = s.done := rfl
@[simp] theorem csSet_xferErr (l : Level) (a : Answer) (s : State) : (csSet l a s).xferErr = s.xferErr := rfl
@[simp] theorem csSet_csErr (l : Level) (a : Answer) (s : State) : (csSet l a s).csErr = s.csErr := rfl
@[simp] theorem csSet_cmdErr (l : Level) (a : Answer) (s : State) : (csSet l a s).cmdErr = s.cmdErr := rfl
@[simp] theorem csSet_cOp (l : Level) (a : Answer) (s : State) : (csSet l a s).cOp = s.cOp := rfl
@[simp] theorem csSet_cAddr (l : Level) (a : Answer) (s : State) : (csSet l a s).cAddr = s.cAddr := rfl
@[simp] theorem csSet_cN (l : Level) (a : Answer) (s : State) : (csSet l a s).cN = s.cN := rfl
@[simp] theorem csSet_csLine (l : Level) (a : Answer) (s : State) : (csSet l a s).csLine = lineAfter l a := rfl
@[simp] theorem csSet_inputs (l : Level) (a : Answer) (s : State) : (csSet l a s).inputs = s.inputs := rfl
@[simp] theorem csSet_trace (l : Level) (a : Answer) (s : State) : (csSet l a s).trace = s.trace ++ [.csSet l a.isOk] := rfl
@[simp] theorem csSet_hostLog (l : Level) (a : Answer) (s : State) : (csSet l a s).hostLog = s.hostLog := rfl
@[simp] theorem csSet_draws (l : Level) (a : Answer) (s : State) : (csSet l a s).draws = s.draws := rfl

@[simp] theorem xchg_d (b : Byte) (a : Answer) (s : State) : (xchg b a s).d = s.d := rfl
@[simp] theorem xchg_phase (b : Byte) (a : Answer) (s : State) : (xchg b a s).phase = s.phase := rfl
@[simp] theorem xchg_idx (b : Byte) (a : Answer) (s : State) : (xchg b a s).idx = s.idx := rfl
@[simp] theorem xchg_done (b : Byte) (a : Answer) (s : State) : (xchg b a s).done = s.done := rfl
@[simp] theorem xchg_xferErr (b : Byte) (a : Answer) (s : State) : (xchg b a s).xferErr = s.xferErr := rfl
@[simp] theorem xchg_csErr (b : Byte) (a : Answer) (s : State) : (xchg b a s).csErr = s.csErr := rfl
@[simp] theorem xchg_cmdErr (b : Byte) (a : Answer) (s : State) : (xchg b a s).cmdErr = s.cmdErr := rfl
@[simp] theorem xchg_cOp (b : Byte) (a : Answer) (s : State) : (xchg b a s).cOp = s.cOp := rfl
@[simp] theorem xchg_cAddr (b : Byte) (a : Answer) (s : State) : (xchg b a s).cAddr = s.cAddr := rfl
@[simp] theorem xchg_cN (b : Byte) (a : Answer) (s : State) : (xchg b a s).cN = s.cN := rfl
@[simp] theorem xchg_csLine (b : Byte) (a : Answer) (s : State) : (xchg b a s).csLine = s.csLine := rfl
@[simp] theorem xchg_inputs (b : Byte) (a : Answer) (s : State) : (xchg b a s).inputs = s.inputs := rfl
@[simp] theorem xchg_trace (b : Byte) (a : Answer) (s : State) : (xchg b a s).trace = s.trace ++ [.xchg b a] := rfl
@[simp] theorem xchg_hostLog (b : Byte) (a : Answer) (s : State) : (xchg b a s).hostLog = s.hostLog := rfl
@[simp] theorem xchg_draws (b : Byte) (a : Answer) (s : State) : (xchg b a s).draws = s.draws := rfl

@[simp] theorem recordStatus_d (b : Byte) (s : State) : (recordStatus b s).d = s.d := rfl
@[simp] theorem recordStatus_phase (b : Byte) (s : State) : (recordStatus b s).phase = s.phase := rfl
@[simp] theorem recordStatus_idx (b : Byte) (s : State) : (recordStatus b s).idx = s.idx := rfl
@[simp] theorem recordStatus_done (b : Byte) (s : State) : (recordStatus b s).done = s.done := rfl
@[simp] theorem recordStatus_xferErr (b : Byte) (s : State) : (recordStatus b s).xferErr = s.xferErr := rfl
@[simp] theorem recordStatus_csErr (b : Byte) (s : State) : (recordStatus b s).csErr = s.csErr := rfl
@[simp] theorem recordStatus_cmdErr (b : Byte) (s : State) : (recordStatus b s).cmdErr = s.cmdErr := rfl
@[simp] theorem recordStatus_cOp (b : Byte) (s : State) : (recordStatus b s).cOp = s.cOp := rfl
@[simp] theorem recordStatus_cAddr (b : Byte) (s : State) : (recordStatus b s).cAddr = s.cAddr := rfl
@[simp] theorem recordStatus_cN (b : Byte) (s : State) : (recordStatus b s).cN = s.cN := rfl
@[simp] theorem recordStatus_csLine (b : Byte) (s : State) : (recordStatus b s).csLine = s.csLine := rfl
@[simp] theorem recordStatus_inputs (b : Byte) (s : State) : (recordStatus b s).inputs = s.inputs := rfl
@[simp] theorem recordStatus_trace (b : Byte) (s : State) : (recordStatus b s).trace = s.trace ++ statusChange b (statusByte s) := rfl
@[simp] theorem recordStatus_hostLog (b : Byte) (s : State) : (recordStatus b s).hostLog = s.hostLog := rfl
@[simp] theorem recordStatus_draws (b : Byte) (s : State) : (recordStatus b s).draws = s.draws := rfl

@[simp] theorem recordCommand_d (i : Instr) (s : State) : (recordCommand i s).d = s.d := rfl
@[simp] theorem recordCommand_phase (i : Instr) (s : State) : (recordCommand i s).phase = s.phase := rfl
@[simp] theorem recordCommand_idx (i : Instr) (s : State) : (recordCommand i s).idx = s.idx := rfl
@[simp] theorem recordCommand_done (i : Instr) (s : State) : (recordCommand i s).done = s.done := rfl
@[simp] theorem recordCommand_xferErr (i : Instr) (s : State) : (recordCommand i s).xferErr = s.xferErr := rfl
@[simp] theorem recordCommand_csErr (i : Instr) (s : State) : (recordCommand i s).csErr = s.csErr := rfl
@[simp] theorem recordCommand_cmdErr (i : Instr) (s : State) : (recordCommand i s).cmdErr = s.cmdErr := rfl
@[simp] theorem recordCommand_cOp (i : Instr) (s : State) : (recordCommand i s).cOp = s.cOp := rfl
@[simp] theorem recordCommand_cAddr (i : Instr) (s : State) : (recordCommand i s).cAddr = s.cAddr := rfl
@[simp] theorem recordCommand_cN (i : Instr) (s : State) : (recordCommand i s).cN = s.cN := rfl
@[simp] theorem recordCommand_csLine (i : Instr) (s : State) : (recordCommand i s).csLine = s.csLine := rfl
@[simp] theorem recordCommand_inputs (i : Instr) (s : State) : (recordCommand i s).inputs = s.inputs := rfl
@[simp] theorem recordCommand_trace (i : Instr) (s : State) : (recordCommand i s).trace = s.trace ++ [.command i] := rfl
@[simp] theorem recordCommand_hostLog (i : Instr) (s : State) : (recordCommand i s).hostLog = s.hostLog := rfl
@[simp] theorem recordCommand_draws (i : Instr) (s : State) : (recordCommand i s).draws = s.draws := rfl

@[simp] theorem clearFlags_d (s : State) : (clearFlags s).d = s.d := rfl
@[simp] theorem clearFlags_phase (s : State) : (clearFlags s).phase = s.phase := rfl
@[simp] theorem clearFlags_idx (s : State) : (clearFlags s).idx = s.idx := rfl
@[simp] theorem clearFlags_done (s : State) : (clearFlags s).done = false := rfl
@[simp] theorem clearFlags_xferErr (s : State) : (clearFlags s).xferErr = false := rfl
@[simp] theorem clearFlags_csErr (s : State) : (clearFlags s).csErr = false := rfl
@[simp] theorem clearFlags_cmdErr (s : State) : (clearFlags s).cmdErr = false := rfl
@[simp] theorem clearFlags_cOp (s : State) : (clearFlags s).cOp = s.cOp := rfl
@[simp] theorem clearFlags_cAddr (s : State) : (clearFlags s).cAddr = s.cAddr := rfl
@[simp] theorem clearFlags_cN (s : State) : (clearFlags s).cN = s.cN := rfl
@[simp] theorem clearFlags_csLine (s : State) : (clearFlags s).csLine = s.csLine := rfl
@[simp] theorem clearFlags_inputs (s : State) : (clearFlags s).inputs = s.inputs := rfl
@[simp] theorem clearFlags_trace (s : State) : (clearFlags s).trace = s.trace := rfl
@[simp] theorem clearFlags_hostLog (s : State) : (clearFlags s).hostLog = s.hostLog := rfl
@[simp] theorem clearFlags_draws (s : State) : (clearFlags s).draws = s.draws := rfl

@[simp] theorem latch_d (op : Op) (addr : BitVec 7) (n : BitVec 5) (s : State) : (latch op addr n s).d = s.d := rfl
@[simp] theorem latch_phase (op : Op) (addr : BitVec 7) (n : BitVec 5) (s : State) : (latch op addr n s).phase = .assert := rfl
@[simp] theorem latch_idx (op : Op) (addr : BitVec 7) (n : BitVec 5) (s : State) : (latch op addr n s).idx = 0#5 := rfl
@[simp] theorem latch_done (op : Op) (addr : BitVec 7) (n : BitVec 5) (s : State) : (latch op addr n s).done = s.done := rfl
@[simp] theorem latch_xferErr (op : Op) (addr : BitVec 7) (n : BitVec 5) (s : State) : (latch op addr n s).xferErr = s.xferErr := rfl
@[simp] theorem latch_csErr (op : Op) (addr : BitVec 7) (n : BitVec 5) (s : State) : (latch op addr n s).csErr = s.csErr := rfl
@[simp] theorem latch_cmdErr (op : Op) (addr : BitVec 7) (n : BitVec 5) (s : State) : (latch op addr n s).cmdErr = s.cmdErr := rfl
@[simp] theorem latch_cOp (op : Op) (addr : BitVec 7) (n : BitVec 5) (s : State) : (latch op addr n s).cOp = op := rfl
@[simp] theorem latch_cAddr (op : Op) (addr : BitVec 7) (n : BitVec 5) (s : State) : (latch op addr n s).cAddr = addr := rfl
@[simp] theorem latch_cN (op : Op) (addr : BitVec 7) (n : BitVec 5) (s : State) : (latch op addr n s).cN = n := rfl
@[simp] theorem latch_csLine (op : Op) (addr : BitVec 7) (n : BitVec 5) (s : State) : (latch op addr n s).csLine = s.csLine := rfl
@[simp] theorem latch_inputs (op : Op) (addr : BitVec 7) (n : BitVec 5) (s : State) : (latch op addr n s).inputs = s.inputs := rfl
@[simp] theorem latch_trace (op : Op) (addr : BitVec 7) (n : BitVec 5) (s : State) : (latch op addr n s).trace = s.trace := rfl
@[simp] theorem latch_hostLog (op : Op) (addr : BitVec 7) (n : BitVec 5) (s : State) : (latch op addr n s).hostLog = s.hostLog := rfl
@[simp] theorem latch_draws (op : Op) (addr : BitVec 7) (n : BitVec 5) (s : State) : (latch op addr n s).draws = s.draws := rfl

theorem statusByte_latch (op : Op) (addr : BitVec 7) (n : BitVec 5) (s : State) :
    statusByte (latch op addr n (clearFlags s)) = 0x01#8 := by
  simp [statusByte, busy]

@[simp] theorem acceptCommand_d (op : Op) (addr : BitVec 7) (n : BitVec 5) (s : State) : (acceptCommand op addr n s).d = s.d := rfl
@[simp] theorem acceptCommand_phase (op : Op) (addr : BitVec 7) (n : BitVec 5) (s : State) : (acceptCommand op addr n s).phase = .assert := rfl
@[simp] theorem acceptCommand_idx (op : Op) (addr : BitVec 7) (n : BitVec 5) (s : State) : (acceptCommand op addr n s).idx = 0#5 := rfl
@[simp] theorem acceptCommand_done (op : Op) (addr : BitVec 7) (n : BitVec 5) (s : State) : (acceptCommand op addr n s).done = false := rfl
@[simp] theorem acceptCommand_xferErr (op : Op) (addr : BitVec 7) (n : BitVec 5) (s : State) : (acceptCommand op addr n s).xferErr = false := rfl
@[simp] theorem acceptCommand_csErr (op : Op) (addr : BitVec 7) (n : BitVec 5) (s : State) : (acceptCommand op addr n s).csErr = false := rfl
@[simp] theorem acceptCommand_cmdErr (op : Op) (addr : BitVec 7) (n : BitVec 5) (s : State) : (acceptCommand op addr n s).cmdErr = false := rfl
@[simp] theorem acceptCommand_cOp (op : Op) (addr : BitVec 7) (n : BitVec 5) (s : State) : (acceptCommand op addr n s).cOp = op := rfl
@[simp] theorem acceptCommand_cAddr (op : Op) (addr : BitVec 7) (n : BitVec 5) (s : State) : (acceptCommand op addr n s).cAddr = addr := rfl
@[simp] theorem acceptCommand_cN (op : Op) (addr : BitVec 7) (n : BitVec 5) (s : State) : (acceptCommand op addr n s).cN = n := rfl
@[simp] theorem acceptCommand_csLine (op : Op) (addr : BitVec 7) (n : BitVec 5) (s : State) : (acceptCommand op addr n s).csLine = s.csLine := rfl
@[simp] theorem acceptCommand_inputs (op : Op) (addr : BitVec 7) (n : BitVec 5) (s : State) : (acceptCommand op addr n s).inputs = s.inputs := rfl
@[simp] theorem acceptCommand_trace (op : Op) (addr : BitVec 7) (n : BitVec 5) (s : State) : (acceptCommand op addr n s).trace = s.trace ++ [.command (Instr.command op addr n)] ++ statusChange (statusByte s) 0x01#8 := by
  simp [acceptCommand, recordStatus, statusByte_latch]
@[simp] theorem acceptCommand_hostLog (op : Op) (addr : BitVec 7) (n : BitVec 5) (s : State) : (acceptCommand op addr n s).hostLog = s.hostLog := rfl
@[simp] theorem acceptCommand_draws (op : Op) (addr : BitVec 7) (n : BitVec 5) (s : State) : (acceptCommand op addr n s).draws = s.draws := rfl

@[simp] theorem loseData_d (s : State) : (loseData s).d = scrambleData s.d s.cN.toNat s.draws := rfl
@[simp] theorem loseData_phase (s : State) : (loseData s).phase = s.phase := rfl
@[simp] theorem loseData_idx (s : State) : (loseData s).idx = s.idx := rfl
@[simp] theorem loseData_done (s : State) : (loseData s).done = s.done := rfl
@[simp] theorem loseData_xferErr (s : State) : (loseData s).xferErr = s.xferErr := rfl
@[simp] theorem loseData_csErr (s : State) : (loseData s).csErr = s.csErr := rfl
@[simp] theorem loseData_cmdErr (s : State) : (loseData s).cmdErr = s.cmdErr := rfl
@[simp] theorem loseData_cOp (s : State) : (loseData s).cOp = s.cOp := rfl
@[simp] theorem loseData_cAddr (s : State) : (loseData s).cAddr = s.cAddr := rfl
@[simp] theorem loseData_cN (s : State) : (loseData s).cN = s.cN := rfl
@[simp] theorem loseData_csLine (s : State) : (loseData s).csLine = s.csLine := rfl
@[simp] theorem loseData_inputs (s : State) : (loseData s).inputs = s.inputs := rfl
@[simp] theorem loseData_trace (s : State) : (loseData s).trace = s.trace := rfl
@[simp] theorem loseData_hostLog (s : State) : (loseData s).hostLog = s.hostLog := rfl
@[simp] theorem loseData_draws (s : State) : (loseData s).draws = s.draws + s.cN.toNat := rfl

@[simp] theorem resetBlock_d (s : State) : (resetBlock s).d = scrambleData s.d Config.nmax s.draws := rfl
@[simp] theorem resetBlock_phase (s : State) : (resetBlock s).phase = .idle := rfl
@[simp] theorem resetBlock_idx (s : State) : (resetBlock s).idx = 0#5 := rfl
@[simp] theorem resetBlock_done (s : State) : (resetBlock s).done = false := rfl
@[simp] theorem resetBlock_xferErr (s : State) : (resetBlock s).xferErr = false := rfl
@[simp] theorem resetBlock_csErr (s : State) : (resetBlock s).csErr = false := rfl
@[simp] theorem resetBlock_cmdErr (s : State) : (resetBlock s).cmdErr = false := rfl
@[simp] theorem resetBlock_cOp (s : State) : (resetBlock s).cOp = opField (Config.anyWord s.draws) := rfl
@[simp] theorem resetBlock_cAddr (s : State) : (resetBlock s).cAddr = addrField (Config.anyWord s.draws) := rfl
@[simp] theorem resetBlock_cN (s : State) : (resetBlock s).cN = nField (Config.anyWord s.draws) := rfl
@[simp] theorem resetBlock_csLine (s : State) : (resetBlock s).csLine = s.csLine := rfl
@[simp] theorem resetBlock_inputs (s : State) : (resetBlock s).inputs = s.inputs := rfl
@[simp] theorem resetBlock_trace (s : State) : (resetBlock s).trace = s.trace ++ [.reset (pendingCall s)] ++ statusChange (statusByte s) 0x00#8 := by
  simp [resetBlock, recordStatus]; simp [statusByte, busy]
@[simp] theorem resetBlock_hostLog (s : State) : (resetBlock s).hostLog = s.hostLog := rfl
@[simp] theorem resetBlock_draws (s : State) : (resetBlock s).draws = s.draws + Config.nmax := rfl

@[simp] theorem hostContinues_d (ops : List HostOp) (s : State) : (hostContinues ops s).d = s.d := rfl
@[simp] theorem hostContinues_phase (ops : List HostOp) (s : State) : (hostContinues ops s).phase = s.phase := rfl
@[simp] theorem hostContinues_idx (ops : List HostOp) (s : State) : (hostContinues ops s).idx = s.idx := rfl
@[simp] theorem hostContinues_done (ops : List HostOp) (s : State) : (hostContinues ops s).done = s.done := rfl
@[simp] theorem hostContinues_xferErr (ops : List HostOp) (s : State) : (hostContinues ops s).xferErr = s.xferErr := rfl
@[simp] theorem hostContinues_csErr (ops : List HostOp) (s : State) : (hostContinues ops s).csErr = s.csErr := rfl
@[simp] theorem hostContinues_cmdErr (ops : List HostOp) (s : State) : (hostContinues ops s).cmdErr = s.cmdErr := rfl
@[simp] theorem hostContinues_cOp (ops : List HostOp) (s : State) : (hostContinues ops s).cOp = s.cOp := rfl
@[simp] theorem hostContinues_cAddr (ops : List HostOp) (s : State) : (hostContinues ops s).cAddr = s.cAddr := rfl
@[simp] theorem hostContinues_cN (ops : List HostOp) (s : State) : (hostContinues ops s).cN = s.cN := rfl
@[simp] theorem hostContinues_csLine (ops : List HostOp) (s : State) : (hostContinues ops s).csLine = s.csLine := rfl
@[simp] theorem hostContinues_inputs (ops : List HostOp) (s : State) : (hostContinues ops s).inputs = ops.map .host ++ s.inputs := rfl
@[simp] theorem hostContinues_trace (ops : List HostOp) (s : State) : (hostContinues ops s).trace = s.trace := rfl
@[simp] theorem hostContinues_hostLog (ops : List HostOp) (s : State) : (hostContinues ops s).hostLog = s.hostLog := rfl
@[simp] theorem hostContinues_draws (ops : List HostOp) (s : State) : (hostContinues ops s).draws = s.draws := rfl

@[simp] theorem hostReceives_d (r : BitVec 8) (v : Half) (s : State) : (hostReceives r v s).d = s.d := rfl
@[simp] theorem hostReceives_phase (r : BitVec 8) (v : Half) (s : State) : (hostReceives r v s).phase = s.phase := rfl
@[simp] theorem hostReceives_idx (r : BitVec 8) (v : Half) (s : State) : (hostReceives r v s).idx = s.idx := rfl
@[simp] theorem hostReceives_done (r : BitVec 8) (v : Half) (s : State) : (hostReceives r v s).done = s.done := rfl
@[simp] theorem hostReceives_xferErr (r : BitVec 8) (v : Half) (s : State) : (hostReceives r v s).xferErr = s.xferErr := rfl
@[simp] theorem hostReceives_csErr (r : BitVec 8) (v : Half) (s : State) : (hostReceives r v s).csErr = s.csErr := rfl
@[simp] theorem hostReceives_cmdErr (r : BitVec 8) (v : Half) (s : State) : (hostReceives r v s).cmdErr = s.cmdErr := rfl
@[simp] theorem hostReceives_cOp (r : BitVec 8) (v : Half) (s : State) : (hostReceives r v s).cOp = s.cOp := rfl
@[simp] theorem hostReceives_cAddr (r : BitVec 8) (v : Half) (s : State) : (hostReceives r v s).cAddr = s.cAddr := rfl
@[simp] theorem hostReceives_cN (r : BitVec 8) (v : Half) (s : State) : (hostReceives r v s).cN = s.cN := rfl
@[simp] theorem hostReceives_csLine (r : BitVec 8) (v : Half) (s : State) : (hostReceives r v s).csLine = s.csLine := rfl
@[simp] theorem hostReceives_inputs (r : BitVec 8) (v : Half) (s : State) : (hostReceives r v s).inputs = s.inputs := rfl
@[simp] theorem hostReceives_trace (r : BitVec 8) (v : Half) (s : State) : (hostReceives r v s).trace = s.trace := rfl
@[simp] theorem hostReceives_hostLog (r : BitVec 8) (v : Half) (s : State) : (hostReceives r v s).hostLog = s.hostLog ++ [.value r v] := rfl
@[simp] theorem hostReceives_draws (r : BitVec 8) (v : Half) (s : State) : (hostReceives r v s).draws = s.draws := rfl

@[simp] theorem convert_d (x : Half) (s : State) : (convert x s).d = s.d := rfl
@[simp] theorem convert_phase (x : Half) (s : State) : (convert x s).phase = s.phase := rfl
@[simp] theorem convert_idx (x : Half) (s : State) : (convert x s).idx = s.idx := rfl
@[simp] theorem convert_done (x : Half) (s : State) : (convert x s).done = s.done := rfl
@[simp] theorem convert_xferErr (x : Half) (s : State) : (convert x s).xferErr = s.xferErr := rfl
@[simp] theorem convert_csErr (x : Half) (s : State) : (convert x s).csErr = s.csErr := rfl
@[simp] theorem convert_cmdErr (x : Half) (s : State) : (convert x s).cmdErr = s.cmdErr := rfl
@[simp] theorem convert_cOp (x : Half) (s : State) : (convert x s).cOp = s.cOp := rfl
@[simp] theorem convert_cAddr (x : Half) (s : State) : (convert x s).cAddr = s.cAddr := rfl
@[simp] theorem convert_cN (x : Half) (s : State) : (convert x s).cN = s.cN := rfl
@[simp] theorem convert_csLine (x : Half) (s : State) : (convert x s).csLine = s.csLine := rfl
@[simp] theorem convert_inputs (x : Half) (s : State) : (convert x s).inputs = s.inputs := rfl
@[simp] theorem convert_trace (x : Half) (s : State) : (convert x s).trace = s.trace := rfl
@[simp] theorem convert_hostLog (x : Half) (s : State) : (convert x s).hostLog = s.hostLog ++ [.float (i16ToF32 x)] := rfl
@[simp] theorem convert_draws (x : Half) (s : State) : (convert x s).draws = s.draws := rfl

end Sys2Proof.Machine
end

