-- ==== Sys2Proof/Laws/Ops.lean ====
section
/-! SUPPORT. What the shared operations can do: the data registers, each sequencer step, the uninterrupted run, the
acceptance of a command, and one step of the machine. Later proofs cite these and unfold none of the operations. -/

namespace Sys2Proof.Machine

/-! ### Data registers -/

theorem dataAt_of_lt (d : Vector Byte Config.nmax) {j : Nat} (h : j < Config.nmax) : dataAt d j = d[j] := by
  simp [dataAt, h]

theorem dataAt_setData (d : Vector Byte Config.nmax) (j k : Nat) (v : Byte) :
    dataAt (setData d j v) k = if j = k ∧ k < Config.nmax then v else dataAt d k := by
  by_cases hk : k < Config.nmax
  · simp only [dataAt, hk, dif_pos, and_true, setData]
    rw [Vector.getElem_setIfInBounds]
  · simp [dataAt, hk]

theorem dataAt_setData_ne (d : Vector Byte Config.nmax) {j k : Nat} (v : Byte) (h : j ≠ k) :
    dataAt (setData d j v) k = dataAt d k := by
  simp [dataAt_setData, h]

theorem dataAt_scrambleData (d : Vector Byte Config.nmax) (n k j : Nat) :
    dataAt (scrambleData d n k) j =
      if j < Config.nmax ∧ j < n then Config.any8 (k + j) else dataAt d j := by
  by_cases hj : j < Config.nmax
  · simp only [dataAt, hj, dif_pos, true_and, scrambleData, Vector.getElem_ofFn]
  · simp [dataAt, hj]

theorem data_ext {a b : Vector Byte Config.nmax} (h : ∀ j, j < Config.nmax → dataAt a j = dataAt b j) : a = b := by
  apply Vector.ext
  intro i hi
  have := h i hi
  rwa [dataAt_of_lt _ hi, dataAt_of_lt _ hi] at this

/-! ### The flags and their changes -/

/-- `STATUS` depends on the flags and on `BUSY` alone (R23). -/
theorem statusByte_congr {s t : State} (hb : busy t = busy s) (hd : t.done = s.done) (hx : t.xferErr = s.xferErr)
    (hc : t.csErr = s.csErr) (hm : t.cmdErr = s.cmdErr) : statusByte t = statusByte s := by
  simp [statusByte, hb, hd, hx, hc, hm]

/-- Where `STATUS` is the same there is no event (R7). -/
theorem recordStatus_same {s : State} {b : Byte} (h : statusByte s = b) : recordStatus b s = s := by
  simp [recordStatus, statusChange, h]

@[simp] theorem statusByte_recordStatus (b : Byte) (s : State) : statusByte (recordStatus b s) = statusByte s := rfl

/-- What the events show of `STATUS` after an action is `STATUS`, if it was so before (R7). -/
theorem statusShown_append_change (l : List TraceEvent) (before after : Byte) (h : statusShown l = before) :
    statusShown (l ++ statusChange before after) = after := by
  unfold statusChange statusShown at *
  split
  · simp [*]
  · simp [List.foldl_append]

/-! ### The sequencer steps -/

theorem framerStep_idle {s : State} (a : Answer) (h : s.phase = .idle) : framerStep a s = s := by
  simp [framerStep, h]

theorem framerStep_assert_ok {s : State} (rx : Byte) (h : s.phase = .assert) :
    framerStep (.ok rx) s = setPosition .xfer 0#5 (csSet .low (.ok rx) s) := by
  simp only [framerStep, h, assertStep]
  exact recordStatus_same (statusByte_congr (by simp [busy, h]) rfl rfl rfl rfl)

theorem framerStep_assert_err {s : State} (h : s.phase = .assert) :
    framerStep .err s =
      recordStatus (statusByte s) (setPosition .release 0#5 { csSet .low .err s with csErr := true }) := by
  simp [framerStep, h, assertStep, raise, forceRelease]

theorem framerStep_xfer_ok {s : State} (rx : Byte) (h : s.phase = .xfer) :
    framerStep (.ok rx) s = advance (storeReceived rx (xchg (nextByte s) (.ok rx) s)) := by
  simp only [framerStep, h, xferStep]
  apply recordStatus_same
  unfold storeReceived advance
  split <;> split <;> exact statusByte_congr (by simp [busy, h]) rfl rfl rfl rfl

theorem framerStep_xfer_err {s : State} (h : s.phase = .xfer) :
    framerStep .err s = recordStatus (statusByte s)
      (setPosition .release 0#5 { loseData (xchg (nextByte s) .err s) with xferErr := true }) := by
  simp [framerStep, h, xferStep, raise, forceRelease]

theorem framerStep_release_ok {s : State} (rx : Byte) (h : s.phase = .release) :
    framerStep (.ok rx) s =
      recordStatus (statusByte s) (setPosition .idle 0#5 { csSet .high (.ok rx) s with done := true }) := by
  simp [framerStep, h, releaseStep, releaseError]

theorem framerStep_release_err {s : State} (h : s.phase = .release) :
    framerStep .err s =
      recordStatus (statusByte s) (setPosition .idle 0#5 { csSet .high .err s with csErr := true, done := true }) := by
  simp [framerStep, h, releaseStep, releaseError, raise, forceRelease]

/-- `storeReceived` changes `D` alone. -/
theorem storeReceived_eq (rx : Byte) (s : State) : storeReceived rx s = { s with d := (storeReceived rx s).d } := by
  unfold storeReceived; split <;> rfl

/-- `advance` changes the position alone: the next index of `XFER`, or `RELEASE` (R15). -/
theorem advance_cases (s : State) :
    (s.idx.toNat + 1 < frameLength s.cOp s.cN ∧ advance s = setPosition .xfer (s.idx + 1#5) s) ∨
    (¬ s.idx.toNat + 1 < frameLength s.cOp s.cN ∧ advance s = setPosition .release 0#5 s) := by
  unfold advance; split <;> simp [*]

/-- The framer's step while busy, every case of it (R92 to R95). -/
theorem framerStep_cases (a : Answer) {s : State} (h : s.phase ≠ .idle) :
    (∃ rx, a = .ok rx ∧ s.phase = .assert ∧ framerStep a s = setPosition .xfer 0#5 (csSet .low a s)) ∨
    (a = .err ∧ s.phase = .assert ∧ framerStep a s =
      recordStatus (statusByte s) (setPosition .release 0#5 { csSet .low a s with csErr := true })) ∨
    (∃ rx, a = .ok rx ∧ s.phase = .xfer ∧ framerStep a s = advance (storeReceived rx (xchg (nextByte s) a s))) ∨
    (a = .err ∧ s.phase = .xfer ∧ framerStep a s = recordStatus (statusByte s)
      (setPosition .release 0#5 { loseData (xchg (nextByte s) a s) with xferErr := true })) ∨
    (∃ rx, a = .ok rx ∧ s.phase = .release ∧ framerStep a s =
      recordStatus (statusByte s) (setPosition .idle 0#5 { csSet .high a s with done := true })) ∨
    (a = .err ∧ s.phase = .release ∧ framerStep a s =
      recordStatus (statusByte s) (setPosition .idle 0#5 { csSet .high a s with csErr := true, done := true })) := by
  cases hp : s.phase with
  | idle => exact absurd hp h
  | assert =>
    cases a with
    | ok rx => exact .inl ⟨rx, rfl, rfl, framerStep_assert_ok rx hp⟩
    | err => exact .inr (.inl ⟨rfl, rfl, framerStep_assert_err hp⟩)
  | xfer =>
    cases a with
    | ok rx => exact .inr (.inr (.inl ⟨rx, rfl, rfl, framerStep_xfer_ok rx hp⟩))
    | err => exact .inr (.inr (.inr (.inl ⟨rfl, rfl, framerStep_xfer_err hp⟩)))
  | release =>
    cases a with
    | ok rx => exact .inr (.inr (.inr (.inr (.inl ⟨rx, rfl, rfl, framerStep_release_ok rx hp⟩))))
    | err => exact .inr (.inr (.inr (.inr (.inr ⟨rfl, rfl, framerStep_release_err hp⟩))))

@[simp] theorem storeReceived_inputs (rx : Byte) (s : State) : (storeReceived rx s).inputs = s.inputs := by
  rw [storeReceived_eq]
@[simp] theorem storeReceived_hostLog (rx : Byte) (s : State) : (storeReceived rx s).hostLog = s.hostLog := by
  rw [storeReceived_eq]
@[simp] theorem storeReceived_trace (rx : Byte) (s : State) : (storeReceived rx s).trace = s.trace := by
  rw [storeReceived_eq]
@[simp] theorem storeReceived_idx (rx : Byte) (s : State) : (storeReceived rx s).idx = s.idx := by
  rw [storeReceived_eq]
@[simp] theorem storeReceived_cOp (rx : Byte) (s : State) : (storeReceived rx s).cOp = s.cOp := by
  rw [storeReceived_eq]
@[simp] theorem storeReceived_cAddr (rx : Byte) (s : State) : (storeReceived rx s).cAddr = s.cAddr := by
  rw [storeReceived_eq]
@[simp] theorem storeReceived_cN (rx : Byte) (s : State) : (storeReceived rx s).cN = s.cN := by
  rw [storeReceived_eq]

/-- The framer's step leaves the latched command, the inputs and the host's log alone. -/
theorem framerStep_frame (a : Answer) (s : State) :
    (framerStep a s).cOp = s.cOp ∧ (framerStep a s).cAddr = s.cAddr ∧ (framerStep a s).cN = s.cN ∧
    (framerStep a s).inputs = s.inputs ∧ (framerStep a s).hostLog = s.hostLog := by
  by_cases h : s.phase = .idle
  · simp [framerStep_idle a h]
  · obtain ⟨rx, rfl, -, e⟩ | ⟨rfl, -, e⟩ | ⟨rx, rfl, -, e⟩ | ⟨rfl, -, e⟩ | ⟨rx, rfl, -, e⟩ | ⟨rfl, -, e⟩ :=
      framerStep_cases a h
    · simp [e]
    · simp [e]
    · rcases advance_cases (storeReceived rx (xchg (nextByte s) (.ok rx) s)) with ⟨-, e'⟩ | ⟨-, e'⟩ <;> simp [e, e']
    · simp [e]
    · simp [e]
    · simp [e]

@[simp] theorem framerStep_cOp (a : Answer) (s : State) : (framerStep a s).cOp = s.cOp := (framerStep_frame a s).1
@[simp] theorem framerStep_cAddr (a : Answer) (s : State) : (framerStep a s).cAddr = s.cAddr :=
  (framerStep_frame a s).2.1
@[simp] theorem framerStep_cN (a : Answer) (s : State) : (framerStep a s).cN = s.cN := (framerStep_frame a s).2.2.1
@[simp] theorem framerStep_inputs (a : Answer) (s : State) : (framerStep a s).inputs = s.inputs :=
  (framerStep_frame a s).2.2.2.1
@[simp] theorem framerStep_hostLog (a : Answer) (s : State) : (framerStep a s).hostLog = s.hostLog :=
  (framerStep_frame a s).2.2.2.2

theorem storeReceived_withInputs (rx : Byte) (s : State) (q : List Input) :
    storeReceived rx (setInputs q s) = setInputs q (storeReceived rx s) := by
  unfold storeReceived
  by_cases h : headerLength s.cOp ≤ s.idx.toNat <;> simp [h, setInputs]

theorem advance_withInputs (s : State) (q : List Input) :
    advance (setInputs q s) = setInputs q (advance s) := by
  unfold advance
  by_cases h : s.idx.toNat + 1 < frameLength s.cOp s.cN <;> simp [h, setPosition, setInputs]

/-- The framer does not look at the inputs. -/
theorem framerStep_withInputs (a : Answer) (s : State) (q : List Input) :
    framerStep a (setInputs q s) = setInputs q (framerStep a s) := by
  by_cases hp : s.phase = .idle
  · rw [framerStep_idle a hp, framerStep_idle a (s := setInputs q s) hp]
  · obtain ⟨rx, rfl, h, e⟩ | ⟨rfl, h, e⟩ | ⟨rx, rfl, h, e⟩ | ⟨rfl, h, e⟩ | ⟨rx, rfl, h, e⟩ | ⟨rfl, h, e⟩ :=
      framerStep_cases a hp
    · rw [e, framerStep_assert_ok rx (s := setInputs q s) h]; rfl
    · rw [e, framerStep_assert_err (s := setInputs q s) h]; rfl
    · rw [e, framerStep_xfer_ok rx (s := setInputs q s) h, ← advance_withInputs, ← storeReceived_withInputs]; rfl
    · rw [e, framerStep_xfer_err (s := setInputs q s) h]; rfl
    · rw [e, framerStep_release_ok rx (s := setInputs q s) h]; rfl
    · rw [e, framerStep_release_err (s := setInputs q s) h]; rfl

/-! ### The uninterrupted run -/

theorem runAnswers_answer {s : State} (a : Answer) (q : List Input) (h : s.phase ≠ .idle) :
    runAnswers (.env (.answer a) :: q) s = runAnswers q (framerStep a s) := by
  simp [runAnswers, h]

theorem runAnswers_idle {s : State} (q : List Input) (h : s.phase = .idle) : runAnswers q s = setInputs q s := by
  cases q with
  | nil => rfl
  | cons x q =>
    cases x with
    | host op => rfl
    | env e => cases e <;> simp [runAnswers, h]

/-- What is true after every step of the framer, whatever the inputs, is true after the run. -/
theorem runAnswers_keeps {P : State → Prop} (inputs : ∀ s q, P s → P (setInputs q s))
    (framer : ∀ a s, s.phase ≠ .idle → P s → P (framerStep a s)) : ∀ q s, P s → P (runAnswers q s) := by
  intro q
  induction q with
  | nil => exact fun s h => inputs s [] h
  | cons x q ih =>
    intro s h
    cases x with
    | host op => exact inputs s _ h
    | env e =>
      cases e with
      | answer a =>
        by_cases hp : s.phase = .idle
        · rw [runAnswers_idle _ hp]; exact inputs s _ h
        · rw [runAnswers_answer a q hp]; exact ih _ (framer a s hp h)
      | lateAnswer a => exact inputs s _ h
      | reset => exact inputs s _ h
      | restoreLine => exact inputs s _ h

/-! ### Commands -/

theorem runCommand_busy {s : State} (op : Op) (addr : BitVec 7) (n : BitVec 5) (h : s.phase ≠ .idle) :
    runCommand op addr n s = s := by
  simp [runCommand, h]

theorem runCommand_legal {s : State} {op : Op} {addr : BitVec 7} {n : BitVec 5} (h : s.phase = .idle)
    (l : legalFields op addr n = true) :
    runCommand op addr n s = runAnswers s.inputs (acceptCommand op addr n s) := by
  simp [runCommand, h, l]

theorem runCommand_illegal {s : State} {op : Op} {addr : BitVec 7} {n : BitVec 5}
    (l : legalFields op addr n = false) : runCommand op addr n s = rejectCommand s := by
  by_cases h : s.phase = .idle <;> simp [runCommand, rejectCommand, h, l]

theorem exec_command (op : Op) (addr : BitVec 7) (n : BitVec 5) (s : State) :
    exec (Instr.command op addr n) s = .next (runCommand op addr n s) := by
  cases op <;> rfl

/-! ### The platform -/

/-- The platform restores the line after `Reset` and before the first command, and at no other time (R204, R182). -/
theorem restoreLine_cases (s : State) :
    (s.phase = .idle ∧ s.done = false ∧ restoreLine s = { s with csLine := .high }) ∨
    (¬(s.phase = .idle ∧ s.done = false) ∧ restoreLine s = s) := by
  by_cases h : s.phase = .idle ∧ s.done = false
  · exact .inl ⟨h.1, h.2, if_pos h⟩
  · exact .inr ⟨h, if_neg h⟩

/-- A late answer is recorded where it answers an abandoned call, and changes nothing else (R202). -/
theorem discardAnswer_cases (a : Answer) (s : State) :
    (0 < abandonedCalls s.trace ∧ discardAnswer a s = { s with trace := s.trace ++ [.lateAnswer a] }) ∨
    (abandonedCalls s.trace = 0 ∧ discardAnswer a s = s) := by
  by_cases h : 0 < abandonedCalls s.trace
  · exact .inl ⟨h, if_pos h⟩
  · exact .inr ⟨by omega, if_neg h⟩

/-! ### The calls the environment has seen -/

@[simp] theorem calls_append (l events : List TraceEvent) : calls (l ++ events) = calls l ++ calls events := by
  simp [calls]

@[simp] theorem calls_nil : calls [] = [] := rfl
@[simp] theorem calls_cons (e : TraceEvent) (l : List TraceEvent) : calls (e :: l) = callsOf e ++ calls l := rfl

/-- A change of `STATUS` is no call. -/
@[simp] theorem calls_statusChange (before after : Byte) : calls (statusChange before after) = [] := by
  unfold statusChange
  split <;> rfl

@[simp] theorem sentBytes_append (l events : List TraceEvent) :
    sentBytes (l ++ events) = sentBytes l ++ sentBytes events := by
  simp [sentBytes]

/-- A busy framer has a call pending (R91). -/
theorem pendingCall_busy {s : State} (h : s.phase ≠ .idle) : ∃ c, pendingCall s = some c := by
  unfold pendingCall
  split
  · exact absurd ‹_› h
  · exact ⟨_, rfl⟩
  · exact ⟨_, rfl⟩
  · exact ⟨_, rfl⟩

/-- The call that a framer step records is the one that was pending (R91). -/
theorem framerStep_calls (a : Answer) (s : State) : calls (framerStep a s).trace = busCalls s := by
  by_cases hp : s.phase = .idle
  · simp [framerStep_idle a hp, busCalls, pendingCall, hp]
  · obtain ⟨rx, rfl, h, e⟩ | ⟨rfl, h, e⟩ | ⟨rx, rfl, h, e⟩ | ⟨rfl, h, e⟩ | ⟨rx, rfl, h, e⟩ | ⟨rfl, h, e⟩ :=
      framerStep_cases a hp
    · simp [e, busCalls, pendingCall, h, callsOf]
    · simp [e, busCalls, pendingCall, h, callsOf]
    · obtain ⟨-, e'⟩ | ⟨-, e'⟩ := advance_cases (storeReceived rx (xchg (nextByte s) (.ok rx) s)) <;>
        simp [e, e', busCalls, pendingCall, h, callsOf]
    · simp [e, busCalls, pendingCall, h, callsOf]
    · simp [e, busCalls, pendingCall, h, callsOf]
    · simp [e, busCalls, pendingCall, h, callsOf]

/-- A `Reset` loses no call: the pending one stands in its event (R202, R7). -/
theorem resetBlock_calls (s : State) : calls (resetBlock s).trace = busCalls s := by
  cases h : pendingCall s <;> simp [busCalls, h, callsOf]

/-! ### The record of the last command -/

/-- The last command after more events. -/
@[simp] theorem lastCommand_append (l events : List TraceEvent) :
    lastCommand (l ++ events) = events.foldl commandAfter (lastCommand l) := by
  simp [lastCommand]

/-- A change of `STATUS` does not change the last command. -/
@[simp] theorem commandAfter_statusChange (last : Option Instr) (before after : Byte) :
    (statusChange before after).foldl commandAfter last = last := by
  unfold statusChange
  split <;> rfl

/-! ### The host's composite operations -/

/-- After an `RDS` the host's last `RDS` value is the one it just read. -/
@[simp] theorem sinceStatus_append_status (log : List HostResult) (v : Half) :
    sinceStatus (log ++ [.value 0x01#8 v]) = some (v.setWidth 8, []) := by
  induction log with
  | nil => rfl
  | cons r log ih => cases r <;> simp [sinceStatus, ih]

/-- A value of another register makes no `RDS` value. -/
theorem sinceStatus_append_none {log : List HostResult} (h : sinceStatus log = none) {reg : BitVec 8} (v : Half)
    (hr : reg ≠ 0x01#8) : sinceStatus (log ++ [.value reg v]) = none := by
  induction log with
  | nil => simp [sinceStatus, hr]
  | cons r log ih =>
    cases r with
    | float f => exact ih h
    | value reg' v' =>
      cases hl : sinceStatus log with
      | some p => simp [sinceStatus, hl] at h
      | none =>
        have hq : reg' ≠ 0x01#8 := by simpa [sinceStatus, hl] using h
        simp [sinceStatus, ih hl, hq]

/-- A later value of another register leaves the last `RDS` value and stands among the later results. -/
theorem sinceStatus_append_value {log later : List HostResult} {status : Byte} (h : sinceStatus log = some (status, later))
    {reg : BitVec 8} (v : Half) (hr : reg ≠ 0x01#8) :
    sinceStatus (log ++ [.value reg v]) = some (status, later ++ [.value reg v]) := by
  induction log generalizing later with
  | nil => simp [sinceStatus] at h
  | cons r log ih =>
    cases r with
    | float f => exact ih h
    | value reg' v' =>
      cases hs : sinceStatus log with
      | some p =>
        have hp : p = (status, later) := by simpa [sinceStatus, hs] using h
        subst hp
        simp [sinceStatus, ih hs]
      | none =>
        have hq : reg' = 0x01#8 ∧ v'.setWidth 8 = status ∧ log = later := by simpa [sinceStatus, hs] using h
        obtain ⟨rfl, rfl, rfl⟩ := hq
        simp [sinceStatus, sinceStatus_append_none hs v hr]

/-- The conditional reads of R146: all of them where the last `RDS` value says `Ok`, none otherwise. -/
theorem readResponse_cases (n : Nat) (s : State) :
    (readOutcome s.hostLog = some .ok ∧ readResponse n s = hostContinues (responseReads n) s) ∨
    (readOutcome s.hostLog ≠ some .ok ∧ readResponse n s = s) := by
  unfold readResponse
  split <;> simp_all

/-- `MOTION_DECODE` decodes where R126 defines it, and nowhere else. -/
theorem decodeMotion_cases (s : State) :
    (motionReady s = true ∧ decodeMotion s = hostContinues motionConversions s) ∨
    (motionReady s = false ∧ decodeMotion s = s) := by
  by_cases h : motionReady s <;> simp [decodeMotion, h]

/-- One turn of `WAIT`: it ends with `DONE`; otherwise it goes on, after the environment's or the platform's next input if
that is what comes next. -/
theorem waitTurn_cases (s : State) :
    (s.done = true ∧ waitTurn s = readStatus s) ∨
    (s.done = false ∧ (∀ e rest, s.inputs ≠ .env e :: rest) ∧
      waitTurn s = setInputs (.host .wait :: s.inputs) (readStatus s)) ∨
    (s.done = false ∧ ∃ e rest, s.inputs = .env e :: rest ∧
      waitTurn s = hostContinues [.wait] (takeEnvironment e (setInputs rest (readStatus s)))) := by
  by_cases hd : s.done = true
  · exact .inl ⟨hd, by simp [waitTurn, hd]⟩
  · have hd' : s.done = false := by simpa using hd
    have hi : (readStatus s).inputs = s.inputs := rfl
    right
    cases hq : s.inputs with
    | nil => exact .inl ⟨hd', by simp, by simp [waitTurn, hd', hi, hq]⟩
    | cons x rest =>
      cases x with
      | host op => exact .inl ⟨hd', by simp, by simp [waitTurn, hd', hi, hq]⟩
      | env e => exact .inr ⟨hd', e, rest, rfl, by simp [waitTurn, hd', hi, hq, hostContinues]⟩

/-! ### One step of the machine -/

theorem step_nil {s : State} (h : s.inputs = []) : step s = .next s := by
  simp [step, takeInput, h]

theorem step_env {s : State} {e : EnvEvent} {rest : List Input} (h : s.inputs = .env e :: rest) :
    step s = .next (takeEnvironment e (setInputs rest s)) := by
  simp [step, takeInput, h]

theorem step_host {s : State} {op : HostOp} {rest : List Input} (h : s.inputs = .host op :: rest) :
    step s = hostStep op (setInputs rest s) := by
  simp [step, takeInput, h]

/-- A property that does not speak of inputs, the host's log or the free values, nor of an idle block's data, and that the
framer's step, the acceptance and the rejection of a command, `Reset`, a late answer and the restoring of the line keep, is
kept by every step of the machine. -/
theorem step_keeps {P : State → Prop}
    (inert : ∀ s d q l k, (s.phase ≠ .idle → d = s.d) → P s → P { s with d := d, inputs := q, hostLog := l, draws := k })
    (framer : ∀ a s, s.phase ≠ .idle → P s → P (framerStep a s))
    (accept : ∀ op addr n s, s.phase = .idle → legalFields op addr n = true → P s →
      P (acceptCommand op addr n s))
    (reject : ∀ s, s.phase = .idle → P s → P (rejectCommand s))
    (reset : ∀ s, P s → P (resetBlock s))
    (late : ∀ a s, P s → P (discardAnswer a s))
    (restore : ∀ s, s.phase = .idle → s.done = false → P s → P { s with csLine := .high })
    {s t : State} (h : P s) (hs : step s = .next t) : P t := by
  have hin : ∀ s q, P s → P (setInputs q s) := fun s q => inert s s.d q s.hostLog s.draws fun _ => rfl
  have hrej : ∀ s, P s → P (rejectCommand s) := by
    intro s h
    by_cases hp : s.phase = .idle
    · exact reject s hp h
    · simpa [rejectCommand, hp] using h
  have hcmd : ∀ op addr n s, P s → P (runCommand op addr n s) := by
    intro op addr n s h
    unfold runCommand
    split
    · split
      · exact runAnswers_keeps hin framer _ _ (accept op addr n s ‹_› ‹_› h)
      · exact hrej s h
    · exact h
  have hread : ∀ i s, P s → P (readData i s) := fun i s h => inert s s.d s.inputs _ _ (fun _ => rfl) h
  have hstat : ∀ s, P s → P (readStatus s) := fun s h => inert s s.d s.inputs _ s.draws (fun _ => rfl) h
  have hrcv : ∀ r v s, P s → P (hostReceives r v s) := fun r v s h => inert s s.d s.inputs _ s.draws (fun _ => rfl) h
  have hcvt : ∀ x s, P s → P (convert x s) := fun x s h => inert s s.d s.inputs _ s.draws (fun _ => rfl) h
  have hexec : ∀ i s t, P s → exec i s = .next t → P t := by
    intro i s t h e
    cases i <;> simp only [exec, execImuWr, execImuRd, execTpWr, execTpRd, execCvt, Host.Outcome.next.injEq] at e <;>
      subst e
    · exact hcmd _ _ _ _ h
    · exact hcmd _ _ _ _ h
    · exact hcmd _ _ _ _ h
    · exact hcmd _ _ _ _ h
    · exact hcvt _ _ h
  have henv : ∀ e s, P s → P (takeEnvironment e s) := by
    intro e s h
    cases e with
    | answer a =>
      by_cases hp : s.phase = .idle
      · simpa [takeEnvironment, framerStep_idle a hp] using h
      · exact framer a s hp h
    | lateAnswer a => exact late a s h
    | reset => exact reset s h
    | restoreLine =>
      obtain ⟨hp, hd, e⟩ | ⟨-, e⟩ := restoreLine_cases s
      · simpa [takeEnvironment, e] using restore s hp hd h
      · simpa [takeEnvironment, e] using h
  cases hq : s.inputs with
  | nil => rw [step_nil hq] at hs; cases hs; exact h
  | cons x rest =>
    cases x with
    | env e => rw [step_env hq] at hs; cases hs; exact henv e _ (hin s rest h)
    | host op =>
      rw [step_host hq] at hs
      have h0 := hin s rest h
      generalize setInputs rest s = s0 at hs h0
      cases op with
      | write reg v =>
        simp only [hostStep, writeRegister] at hs
        split at hs
        · simp only [writeCmd] at hs
          split at hs
          · exact hexec _ _ _ h0 hs
          · cases hs; exact hrej _ h0
        · cases hs; exact h0
        · cases hs
          unfold writeData
          split
          · exact inert s0 _ s0.inputs s0.hostLog s0.draws (fun hp => absurd ‹_› hp) h0
          · exact h0
        · cases hs; exact h0
      | read reg =>
        simp only [hostStep, readRegister, Host.Outcome.next.injEq] at hs
        subst hs
        split
        · exact hrcv _ _ _ h0
        · exact hstat _ h0
        · exact hread _ _ h0
        · exact hrcv _ _ _ h0
      | convert x =>
        simp only [hostStep, presentConverter, decodeAt] at hs
        exact hexec _ _ _ h0 hs
      | convertSample k =>
        simp only [hostStep, Host.Outcome.next.injEq] at hs
        subst hs
        exact hcvt _ _ (hread _ _ (hread _ _ h0))
      | wait =>
        simp only [hostStep, waitTurn, Host.Outcome.next.injEq] at hs
        subst hs
        have h1 := hstat _ h0
        split
        · exact h1
        · split
          · exact hin _ _ h1
          · exact hin _ _ h1
          · exact hin _ _ (henv _ _ (hin _ _ h1))
      | readResponse n =>
        simp only [hostStep, readResponse, Host.Outcome.next.injEq] at hs
        subst hs
        split
        · exact hin _ _ h0
        · exact h0
        · exact h0
        · exact h0
        · exact h0
      | motionDecode =>
        simp only [hostStep, decodeMotion, Host.Outcome.next.injEq] at hs
        subst hs
        split
        · exact hin _ _ h0
        · exact h0

end Sys2Proof.Machine
end

