-- ==== Sys2Proof/Laws/PerInstr.lean ====
section
/-! SUPPORT. A statement about each instruction as syntax: the fields of its encoding stand where R60 and R61 put them. -/

namespace Sys2Proof.Laws.EncodedFields

/-- The `op`, `addr`, reserved and `n` fields of the encoding of a framer command (R60); the operand of `CVT` is the
whole word (R61). -/
def Statement (i : Instr) : Prop :=
  match i with
  | .imuWr addr n => opField (encode i) = .imuWr ∧ addrField (encode i) = addr ∧ reservedField (encode i) = 0#2 ∧
      nField (encode i) = n
  | .imuRd addr n => opField (encode i) = .imuRd ∧ addrField (encode i) = addr ∧ reservedField (encode i) = 0#2 ∧
      nField (encode i) = n
  | .tpWr addr n => opField (encode i) = .tpWr ∧ addrField (encode i) = addr ∧ reservedField (encode i) = 0#2 ∧
      nField (encode i) = n
  | .tpRd addr n => opField (encode i) = .tpRd ∧ addrField (encode i) = addr ∧ reservedField (encode i) = 0#2 ∧
      nField (encode i) = n
  | .cvt x => encode i = x

theorem addrField_encodeFields (op : Op) (addr : BitVec 7) (n : BitVec 5) : addrField (encodeFields op addr n) = addr := by
  apply BitVec.eq_of_getLsbD_eq
  intro i hi
  simp only [addrField, encodeFields, BitVec.getLsbD_extractLsb', BitVec.getLsbD_append]
  have : i < 7 := hi
  simp only [this, decide_true, Bool.true_and]
  rw [if_neg (by omega), if_neg (by omega), if_pos (by omega)]
  congr 1
  omega

theorem nField_encodeFields (op : Op) (addr : BitVec 7) (n : BitVec 5) : nField (encodeFields op addr n) = n := by
  apply BitVec.eq_of_getLsbD_eq
  intro i hi
  simp only [nField, encodeFields, BitVec.getLsbD_extractLsb', BitVec.getLsbD_append]
  rw [if_pos (by omega)]
  simp [hi]

theorem reservedField_encodeFields (op : Op) (addr : BitVec 7) (n : BitVec 5) :
    reservedField (encodeFields op addr n) = 0#2 := by
  apply BitVec.eq_of_getLsbD_eq
  intro i hi
  simp only [reservedField, encodeFields, BitVec.getLsbD_extractLsb', BitVec.getLsbD_append]
  rw [if_neg (by omega), if_pos (by omega)]
  simp

theorem opField_encodeFields (op : Op) (addr : BitVec 7) (n : BitVec 5) : opField (encodeFields op addr n) = op := by
  have h14 : (encodeFields op addr n).getLsbD 14 = op.bits.getLsbD 0 := by
    simp only [encodeFields, BitVec.getLsbD_append]
    rw [if_neg (by omega), if_neg (by omega), if_neg (by omega)]
  have h15 : (encodeFields op addr n).getLsbD 15 = op.bits.getLsbD 1 := by
    simp only [encodeFields, BitVec.getLsbD_append]
    rw [if_neg (by omega), if_neg (by omega), if_neg (by omega)]
  rw [opField, h14, h15]
  cases op <;> rfl

theorem imuWr (addr : BitVec 7) (n : BitVec 5) : Statement (.imuWr addr n) :=
  ⟨opField_encodeFields _ _ _, addrField_encodeFields _ _ _, reservedField_encodeFields _ _ _, nField_encodeFields _ _ _⟩

theorem imuRd (addr : BitVec 7) (n : BitVec 5) : Statement (.imuRd addr n) :=
  ⟨opField_encodeFields _ _ _, addrField_encodeFields _ _ _, reservedField_encodeFields _ _ _, nField_encodeFields _ _ _⟩

theorem tpWr (addr : BitVec 7) (n : BitVec 5) : Statement (.tpWr addr n) :=
  ⟨opField_encodeFields _ _ _, addrField_encodeFields _ _ _, reservedField_encodeFields _ _ _, nField_encodeFields _ _ _⟩

theorem tpRd (addr : BitVec 7) (n : BitVec 5) : Statement (.tpRd addr n) :=
  ⟨opField_encodeFields _ _ _, addrField_encodeFields _ _ _, reservedField_encodeFields _ _ _, nField_encodeFields _ _ _⟩

theorem cvt (x : BitVec 16) : Statement (.cvt x) := rfl

end Sys2Proof.Laws.EncodedFields
end

