-- ==== Sys2Proof/Laws/Transaction.lean ====
section
/-! SUPPORT. The exchange of several frame bytes as one lemma (R93), for the proofs about whole transactions. -/

namespace Sys2Proof.Machine

/-! ### Legal fields -/

theorem legalFields_count {op : Op} {addr : BitVec 7} {n : BitVec 5} (h : legalFields op addr n = true) :
    1 ≤ n.toNat ∧ n.toNat ≤ Config.nmax := by
  simp only [legalFields, countNonzero, countInRange, Bool.and_eq_true, decide_eq_true_eq] at h
  exact ⟨h.1.1.1, h.1.1.2⟩

theorem legalFields_tpWr {addr : BitVec 7} {n : BitVec 5} (h : legalFields .tpWr addr n = true) : n.toNat = 1 := by
  simp only [legalFields, singlePayload, Bool.and_eq_true, decide_eq_true_eq] at h
  exact h.2

/-- The payload window of a legal command has `N` positions (R64). -/
theorem frameLength_eq {op : Op} {addr : BitVec 7} {n : BitVec 5} (h : legalFields op addr n = true) :
    frameLength op n = headerLength op + n.toNat := by
  cases op with
  | imuWr => simp [frameLength, headerLength]; omega
  | imuRd => simp [frameLength, headerLength]; omega
  | tpWr => simp [frameLength, headerLength, legalFields_tpWr h]
  | tpRd => simp [frameLength, headerLength]; omega

theorem frameLength_le {op : Op} {addr : BitVec 7} {n : BitVec 5} (h : legalFields op addr n = true) :
    frameLength op n ≤ 18 := by
  have := (legalFields_count h).2
  rw [frameLength_eq h]
  cases op <;> simp only [headerLength, Config.nmax] at * <;> omega

theorem headerLength_pos (op : Op) : 1 ≤ headerLength op ∧ headerLength op ≤ 2 := by
  cases op <;> simp [headerLength]

/-! ### The bytes sent are those held at the start -/

/-- Storing the byte received at index `i` changes no byte sent at a later index (R65, R12). -/
theorem frameByte_setData {op : Op} {addr : BitVec 7} {n : BitVec 5} (h : legalFields op addr n = true)
    (d : Vector Byte Config.nmax) (v : Byte) {i k : Nat} (hi : headerLength op ≤ i) (hk : i < k)
    (hL : k < frameLength op n) :
    frameByte op addr (setData d (i - headerLength op) v) k = frameByte op addr d k := by
  have hk0 : k ≠ 0 := by omega
  cases op with
  | imuWr =>
    simp only [headerLength] at hi
    simp only [frameByte, hk0, if_false, headerLength]
    exact dataAt_setData_ne d v (by omega)
  | imuRd => simp [frameByte, hk0]
  | tpWr => simp only [headerLength, frameLength] at hi hL; omega
  | tpRd => simp [frameByte, hk0]

/-! ### One exchange, then several -/

/-- The `XFER` step answered `ok`, for a legal command (R93), field by field. -/
theorem framerStep_exchange {s : State} (rx : Byte) (hp : s.phase = .xfer)
    (hl : legalFields s.cOp s.cAddr s.cN = true) :
    ∃ t, framerStep (.ok rx) s = t ∧
      t = { s with
        d := if headerLength s.cOp ≤ s.idx.toNat then setData s.d (s.idx.toNat - headerLength s.cOp) rx else s.d
        phase := t.phase
        idx := t.idx
        trace := s.trace ++ [.xchg (frameByte s.cOp s.cAddr s.d s.idx.toNat) (.ok rx)] } ∧
      (s.idx.toNat + 1 < frameLength s.cOp s.cN → t.phase = .xfer ∧ t.idx.toNat = s.idx.toNat + 1) ∧
      (s.idx.toNat + 1 = frameLength s.cOp s.cN → t.phase = .release ∧ t.idx = 0#5) := by
  have hL := frameLength_le hl
  refine ⟨_, rfl, ?_, ?_, ?_⟩
  · rw [framerStep_xfer_ok rx hp]
    by_cases h1 : s.idx.toNat + 1 < frameLength s.cOp s.cN <;> by_cases h2 : headerLength s.cOp ≤ s.idx.toNat <;>
      simp [storeReceived, advance, h1, h2, setPosition, xchg, nextByte]
  · intro h1
    rw [framerStep_xfer_ok rx hp]
    have : (s.idx + 1#5).toNat = s.idx.toNat + 1 := by simp; omega
    simp [advance, h1, this]
  · intro h1
    rw [framerStep_xfer_ok rx hp]
    simp [advance, h1]

/-- Several exchanges answered `ok` (R93, R97): the bytes sent, the bytes stored, the position after. -/
theorem runAnswers_exchanges (rx : List Byte) : ∀ s : State, s.phase = .xfer →
    legalFields s.cOp s.cAddr s.cN = true → s.idx.toNat < frameLength s.cOp s.cN →
    s.idx.toNat + rx.length ≤ frameLength s.cOp s.cN →
    ∃ t, (∀ q, runAnswers (rx.map okAnswer ++ q) s = runAnswers q t) ∧
      t = { s with
        d := t.d
        phase := t.phase
        idx := t.idx
        trace := s.trace ++
          exchanges ((List.range rx.length).map fun k => frameByte s.cOp s.cAddr s.d (s.idx.toNat + k)) rx } ∧
      (s.idx.toNat + rx.length < frameLength s.cOp s.cN →
        t.phase = .xfer ∧ t.idx.toNat = s.idx.toNat + rx.length) ∧
      (s.idx.toNat + rx.length = frameLength s.cOp s.cN → t.phase = .release ∧ t.idx = 0#5) ∧
      (∀ j, j < Config.nmax → headerLength s.cOp + j < s.idx.toNat ∨ s.idx.toNat + rx.length ≤ headerLength s.cOp + j →
        dataAt t.d j = dataAt s.d j) ∧
      (∀ j, j < Config.nmax → s.idx.toNat ≤ headerLength s.cOp + j →
        headerLength s.cOp + j < s.idx.toNat + rx.length →
        rx[headerLength s.cOp + j - s.idx.toNat]? = some (dataAt t.d j)) := by
  induction rx with
  | nil =>
    intro s hp hl hi hL
    refine ⟨s, fun q => rfl, ?_, ?_, ?_, ?_, ?_⟩
    · simp [exchanges]
    · intro _; exact ⟨hp, rfl⟩
    · intro h; simp at h; omega
    · intro j _ _; rfl
    · intro j _ h1 h2; simp at h2; omega
  | cons r rx ih =>
    intro s hp hl hi hL
    have hlen : (r :: rx).length = rx.length + 1 := rfl
    obtain ⟨t1, hs, ht, hx, hr⟩ := framerStep_exchange r hp hl
    have hd : t1.d = if headerLength s.cOp ≤ s.idx.toNat then setData s.d (s.idx.toNat - headerLength s.cOp) r
        else s.d := by rw [ht]
    have hop : t1.cOp = s.cOp := by rw [ht]
    have had : t1.cAddr = s.cAddr := by rw [ht]
    have hn : t1.cN = s.cN := by rw [ht]
    have htr : t1.trace = s.trace ++ [.xchg (frameByte s.cOp s.cAddr s.d s.idx.toNat) (.ok r)] := by rw [ht]
    have hrun : ∀ q, runAnswers ((r :: rx).map okAnswer ++ q) s = runAnswers (rx.map okAnswer ++ q) t1 := by
      intro q
      rw [List.map_cons, List.cons_append, okAnswer, runAnswers_answer _ _ (by rw [hp]; decide), hs]
    by_cases hlast : s.idx.toNat + 1 = frameLength s.cOp s.cN
    · have : rx = [] := by
        apply List.eq_nil_of_length_eq_zero
        rw [hlen] at hL; omega
      subst this
      refine ⟨t1, hrun, ?_, ?_, ?_, ?_, ?_⟩
      · rw [ht]; simp [exchanges]
      · intro h; simp at h; omega
      · intro _; exact hr hlast
      · intro j hj h
        rw [hd]
        split
        · refine dataAt_setData_ne _ _ ?_
          simp at h; omega
        · rfl
      · intro j hj h1 h2
        simp at h2
        have e : headerLength s.cOp + j - s.idx.toNat = 0 := by omega
        rw [e, hd, if_pos (by omega), dataAt_setData, if_pos ⟨by omega, hj⟩]
        rfl
    · have hlt : s.idx.toNat + 1 < frameLength s.cOp s.cN := by omega
      obtain ⟨hp1, hi1⟩ := hx hlt
      obtain ⟨t, trun, tt, tx, tr, tk, tw⟩ := ih t1 hp1 (by rw [hop, had, hn]; exact hl) (by rw [hop, hn]; omega)
        (by rw [hop, hn]; rw [hlen] at hL; omega)
      rw [hop, hn, hi1] at tx tr
      rw [hop, hi1] at tk tw
      refine ⟨t, fun q => (hrun q).trans (trun q), ?_, ?_, ?_, ?_, ?_⟩
      · have hev : exchanges ((List.range rx.length).map fun k => frameByte t1.cOp t1.cAddr t1.d (t1.idx.toNat + k)) rx =
            exchanges ((List.range rx.length).map fun k => frameByte s.cOp s.cAddr s.d (s.idx.toNat + 1 + k)) rx := by
          congr 1
          apply List.map_congr_left
          intro k hk
          have hk' := List.mem_range.mp hk
          rw [hop, had, hi1, hd]
          split
          · exact frameByte_setData hl _ _ ‹_› (by omega) (by rw [hlen] at hL; omega)
          · rfl
        rw [hev] at tt
        have hcons : exchanges ((List.range (r :: rx).length).map
              fun k => frameByte s.cOp s.cAddr s.d (s.idx.toNat + k)) (r :: rx) =
            .xchg (frameByte s.cOp s.cAddr s.d s.idx.toNat) (.ok r) ::
              exchanges ((List.range rx.length).map fun k => frameByte s.cOp s.cAddr s.d (s.idx.toNat + 1 + k)) rx := by
          simp only [exchanges, List.length_cons, List.range_succ_eq_map, List.map_cons, List.zip_cons_cons,
            List.map_map, Nat.add_zero, List.cons.injEq, true_and]
          congr 3
          funext k
          simp only [Function.comp]
          congr 1
          omega
        rw [hcons]
        rw [ht] at tt
        simpa [List.append_assoc] using tt
      · intro h; obtain ⟨a, b⟩ := tx (by rw [hlen] at h; omega); exact ⟨a, by rw [b, hlen]; omega⟩
      · intro h; exact tr (by rw [hlen] at h; omega)
      · intro j hj h
        rw [tk j hj (by rw [hlen] at h; omega), hd]
        split
        · refine dataAt_setData_ne _ _ ?_
          rw [hlen] at h; omega
        · rfl
      · intro j hj h1 h2
        rcases Nat.eq_or_lt_of_le h1 with e | l
        · rw [tk j hj (by omega), ← e, Nat.sub_self, hd, if_pos (by omega), dataAt_setData,
            if_pos ⟨by omega, hj⟩]
          rfl
        · have := tw j hj (by omega) (by rw [hlen] at h2; omega)
          have e : headerLength s.cOp + j - s.idx.toNat = (headerLength s.cOp + j - (s.idx.toNat + 1)) + 1 := by omega
          rw [e, List.getElem?_cons_succ]
          exact this

end Sys2Proof.Machine
end

