-- ==== Sys2Proof/Tests/Slice0.lean ====
section
/-! SUPPORT. The model's own tests: one ill-formed term for each check of WellFormed; words written out from the encoding
table of spec/30_encoding.md R69; vectors of spec/95_test_vectors.md (their ids in the comments), one step each; and for
every statement with hypotheses a concrete state and operands that meet them together. -/

namespace Sys2Proof.Tests

open Sys2Proof.Machine

/-! ### Well-formedness: each check refuses -/

theorem test_wellFormed_refuses_zero_count : (Instr.imuRd 0x22#7 0#5).wellFormed = false := by decide
theorem test_wellFormed_refuses_count_above_nmax : (Instr.imuWr 0x22#7 17#5).wellFormed = false := by decide
theorem test_wellFormed_refuses_wide_tp_address : (Instr.tpRd 0x20#7 4#5).wellFormed = false := by decide
theorem test_wellFormed_refuses_tp_burst_write : (Instr.tpWr 0x02#7 2#5).wellFormed = false := by decide
theorem test_wellFormed_accepts_largest : (Instr.tpRd 0x1F#7 16#5).wellFormed = true := by decide

/-! ### Decoding: the words of R69 and of section 2.1, bit by bit -/

/-- T-E13: `00 0000000 00 10000`. -/
theorem test_decode_imuWr : decodeCmd 0b0000000000010000#16 = .ok (.imuWr 0x00#7 16#5) := by decide
/-- T-E1: `01 0001111 00 00001`. -/
theorem test_decode_imuRd : decodeCmd 0b0100011110000001#16 = .ok (.imuRd 0x0F#7 1#5) := by decide
/-- T-E7: `10 0000010 00 00001`. -/
theorem test_decode_tpWr : decodeCmd 0b1000000100000001#16 = .ok (.tpWr 0x02#7 1#5) := by decide
/-- T-E12: `11 0011111 00 10000`. -/
theorem test_decode_tpRd : decodeCmd 0b1100111110010000#16 = .ok (.tpRd 0x1F#7 16#5) := by decide
/-- R61: every pattern at the converter is an operand. -/
theorem test_decode_cvt : decodeAt .converter 0xFFFF#16 = .ok (.cvt 0xFFFF#16) := by decide
/-- T-L4: a reserved bit set. -/
theorem test_decode_rejects_reserved_bits : decodeCmd 0x512C#16 = .error .reservedBits := by decide
/-- T-L11. -/
theorem test_decode_rejects_zero_count : decodeCmd 0x0000#16 = .error .zeroCount := by decide
/-- T-L3. -/
theorem test_decode_rejects_large_count : decodeCmd 0x511F#16 = .error .countAboveNmax := by decide
/-- T-L10. -/
theorem test_decode_rejects_wide_tp_address : decodeCmd 0x9001#16 = .error .tpAddressTooWide := by decide
/-- T-L8. -/
theorem test_decode_rejects_tp_burst_write : decodeCmd 0x8102#16 = .error .tpWriteCount := by decide
/-- T-E10, as a word of the opcode table. -/
theorem test_table_word : decodeTableWord 16 0xCA04 = some (.tpRd 0x14#7 4#5) := by decide
/-- Only the row `CVT` matches `0xFFFF` (R69). -/
theorem test_table_word_converter : decodeTableWord 16 0xFFFF = some (.cvt 0xFFFF#16) := by decide

/-! ### A small state -/

/-- Idle, `D[i] = 0xD0 + i`, the line high. -/
def demo : State where
  d := #v[0xD0#8, 0xD1#8, 0xD2#8, 0xD3#8, 0xD4#8, 0xD5#8, 0xD6#8, 0xD7#8,
          0xD8#8, 0xD9#8, 0xDA#8, 0xDB#8, 0xDC#8, 0xDD#8, 0xDE#8, 0xDF#8]
  phase := .idle
  idx := 0#5
  done := false
  xferErr := false
  csErr := false
  cmdErr := false
  cOp := .imuWr
  cAddr := 0#7
  cN := 0#5
  csLine := .high
  inputs := []
  trace := []
  hostLog := []
  draws := 0

/-- `demo` with the given inputs. -/
def demoWith (q : List Input) : State := { demo with inputs := q }

/-- `TP_RD 0x14, 4` in flight in phase `p` at index `i`, with the calls a run makes to come there. -/
def demoBusy (p : Phase) (i : BitVec 5) (line : Line) (trace : List TraceEvent) (q : List Input) : State :=
  { demo with phase := p, idx := i, cOp := .tpRd, cAddr := 0x14#7, cN := 4#5, csLine := line, trace := trace, inputs := q }

/-- In `ASSERT`. -/
def demoAssert (q : List Input) : State := demoBusy .assert 0#5 .high [] q
/-- In `XFER` at index 0. -/
def demoXfer (q : List Input) : State := demoBusy .xfer 0#5 .low [.csSet .low true] q
/-- In `RELEASE`. -/
def demoRelease (q : List Input) : State := demoBusy .release 0#5 .low [.csSet .low true] q

/-- `demo` after a successful `IMU_POLL`. -/
def demoPolledImu (q : List Input) : State :=
  { demoWith q with
    done := true, cOp := .imuRd, cAddr := 0x22#7, cN := 12#5, trace := [.command (.imuRd 0x22#7 12#5)] }

/-- A property of the next state, as a Bool. -/
def nextIs (o : Host.Outcome State Fault Refusal) (p : State → Bool) : Bool :=
  match o with
  | .next t => p t
  | .fault _ => false
  | .refused _ => false

/-! ### Vectors, one step each -/

/-- T-F7: the payload goes out, the bytes that come back take its place, `D[3]` stays. -/
theorem test_imuWr_frame : nextIs
    (step ((demoWith [okAnswer 0, okAnswer 0x11, okAnswer 0x22, okAnswer 0x33, okAnswer 0x44, okAnswer 0]).withFetchWord
      16 0x0803))
    (fun t => sentBytes t.trace = [0x10#8, 0xD0#8, 0xD1#8, 0xD2#8] && t.d[0] = 0x22#8 && t.d[1] = 0x33#8 &&
      t.d[2] = 0x44#8 && t.d[3] = 0xD3#8 && statusByte t = 0x02#8) = true := by decide

/-- T-F2: the identity read. -/
theorem test_imuRd_frame : nextIs
    (step ((demoWith [okAnswer 0, okAnswer 0x77, okAnswer 0x69, okAnswer 0]).withFetchWord 16 0x4781))
    (fun t => sentBytes t.trace = [0x8F#8, 0x00#8] && t.d[0] = 0x69#8 && t.d[1] = 0xD1#8 && statusByte t = 0x02#8)
      = true := by decide

/-- T-X4, T-X5: the fourth exchange fails, then `CsSet(high)`; `D[12..15]` stay. -/
theorem test_imuRd_failed_exchange : nextIs
    (step ((demoWith [okAnswer 0, okAnswer 1, okAnswer 2, okAnswer 3, errAnswer, errAnswer]).withFetchWord 16 0x510C))
    (fun t => sentBytes t.trace = [0xA2#8, 0x00#8, 0x00#8, 0x00#8] && statusByte t = 0x0E#8 && t.d[12] = 0xDC#8 &&
      t.csLine = .unknown) = true := by decide

/-- T-F4 with payload `0xD0`. -/
theorem test_tpWr_frame : nextIs
    (step ((demoWith [okAnswer 0, okAnswer 0x77, okAnswer 0x55, okAnswer 0]).withFetchWord 16 0x8101))
    (fun t => sentBytes t.trace = [0x82#8, 0xD0#8] && t.d[0] = 0x55#8 && statusByte t = 0x02#8) = true := by decide

/-- T-F5. -/
theorem test_tpRd_frame : nextIs
    (step ((demoWith [okAnswer 0, okAnswer 1, okAnswer 2, okAnswer 0x10, okAnswer 0x20, okAnswer 0x31, okAnswer 0x40,
      okAnswer 0]).withFetchWord 16 0xCA04))
    (fun t => sentBytes t.trace = [0xB4#8, 0xFC#8, 0xFC#8, 0xFC#8, 0xFC#8, 0xFC#8] && t.d[0] = 0x10#8 &&
      t.d[3] = 0x40#8 && t.d[4] = 0xD4#8 && statusByte t = 0x02#8) = true := by decide

/-- T-X1: `CsSet(low)` fails; no byte is sent. -/
theorem test_tpRd_failed_assert : nextIs
    (step ((demoWith [errAnswer, okAnswer 0]).withFetchWord 16 0xCA04))
    (fun t => t.trace = [.command (.tpRd 0x14#7 4#5), .status 0x01#8, .csSet .low false, .status 0x09#8, .csSet .high true, .status 0x0A#8] && t.d[0] = 0xD0#8 && statusByte t = 0x0A#8)
      = true := by decide

/-- T-CV21, T-CV19: -32767 and 32767. -/
theorem test_cvt_values : i16ToF32 0x8001#16 = 0xC6FFFE00#32 ∧ i16ToF32 0x7FFF#16 = 0x46FFFE00#32 := by decide

/-- T-CV7 and T-CV9: the byte order matters. -/
theorem test_le16_order : i16ToF32 (le16 0x64#8 0x00#8) = 0x42C80000#32 ∧
    i16ToF32 (le16 0x00#8 0x64#8) = 0x46C80000#32 := by decide

/-- T-H11: an illegal word clears the old error. -/
theorem test_illegal_word_clears_errors : nextIs
    (step { demoWith [.host (cmdWrite 0x5100#16)] with done := true, xferErr := true })
    (fun t => statusByte t = 0x12#8 && t.trace = [.status 0x12#8]) = true := by decide

/-- T-H3: `WRD 3, 0x5A`. -/
theorem test_wrd : nextIs (step (demoWith [.host (wrd 3 0x5A#8)])) (fun t => t.d[3] = 0x5A#8) = true := by decide

/-- T-H9: register `0x05` reads zero. -/
theorem test_reserved_register : nextIs (step (demoWith [.host (.read 0x05#8)]))
    (fun t => t.hostLog = [.value 0x05#8 0x0000#16]) = true := by decide

/-- T-R2: `Reset` in `XFER` leaves the line low. -/
theorem test_reset_in_xfer : nextIs (step (demoXfer [.env .reset]))
    (fun t => t.phase = .idle && statusByte t = 0x00#8 && t.csLine = .low) = true := by decide

/-- T-X9 cut short: the byte that is never answered is on the bus, before a `Reset` and after it. -/
theorem test_unanswered_call_is_an_event :
    busCalls (demoXfer []) = [.csSet .low, .xchg 0xB4#8] ∧
    nextIs (step (demoXfer [.env .reset]))
      (fun t => busCalls t = [.csSet .low, .xchg 0xB4#8] && sentBytes t.trace = [0xB4#8]) = true := by decide

/-- R126: after an `Ok` `TP_WR` nothing is decoded. -/
theorem test_motion_decode_needs_imu_poll :
    nextIs (step { demoPolledImu [.host .motionDecode] with trace := [.command (.tpWr 0x02#7 1#5)] })
      (fun t => t.inputs = [] && t.hostLog = []) = true := by decide

/-- R182: after `ChipSelectFailed` the platform's event leaves the line unknown. -/
theorem test_line_stays_unknown_after_failure :
    nextIs (step { demoWith [.env .restoreLine] with csLine := .unknown, done := true, csErr := true })
      (fun t => t.csLine = .unknown) = true := by decide

/-- R202, R204: the platform makes the line high after `Reset`. -/
theorem test_restore_line :
    nextIs (step { demoWith [.env .restoreLine] with csLine := .low }) (fun t => t.csLine = .high) = true := by decide

/-- T-R4: the first command after reset is accepted and waits for its first answer. -/
theorem test_first_command_after_reset : nextIs (step (State.reset.withFetchWord 16 0x4781))
    (fun t => t.phase = .assert && t.cOp = .imuRd && statusByte t = 0x01#8) = true := by decide

/-! ### Witnesses: a state and operands that meet each statement's hypotheses -/

theorem witness_PlatformResetAbandonsTransaction :
    ((demoXfer [.env .reset]).inputs = .env .reset :: []) ∧
    (∀ l ∈ [[TraceEvent.reset (some (.csSet .low))], []],
      (demoBusy .idle 0#5 .high l [.env (.lateAnswer .err)]).inputs = .env (.lateAnswer .err) :: []) ∧
    0 < abandonedCalls [TraceEvent.reset (some (.csSet .low))] ∧ abandonedCalls [] = 0 ∧
    ((demoWith [okAnswer 1]).phase = .idle ∧ (demoWith [okAnswer 1]).inputs = .env (.answer (.ok 1)) :: []) := by decide

theorem witness_PlatformRestoresLine :
    ((demoWith [.env .restoreLine]).inputs = .env .restoreLine :: [] ∧ (demoWith [.env .restoreLine]).phase = .idle ∧
      (demoWith [.env .restoreLine]).done = false) ∧
    ((demoXfer [.env .restoreLine]).inputs = .env .restoreLine :: [] ∧ (demoXfer [.env .restoreLine]).phase ≠ .idle) ∧
    ((demoPolledImu [.env .restoreLine]).inputs = .env .restoreLine :: [] ∧
      (demoPolledImu [.env .restoreLine]).done = true) := by
  decide

theorem witness_StatusReadChangesNothing : (demoXfer [.host rds]).inputs = .host rds :: [] := by decide

theorem witness_OutcomeReportsFirstError :
    demo.done = false ∧
    ({ demo with done := true, cmdErr := true }.done = true ∧ { demo with done := true, cmdErr := true }.cmdErr = true) ∧
    ({ demo with done := true, xferErr := true, csErr := true }.done = true ∧
      { demo with done := true, xferErr := true, csErr := true }.cmdErr = false ∧
      { demo with done := true, xferErr := true, csErr := true }.xferErr = true) ∧
    ({ demo with done := true, csErr := true }.done = true ∧ { demo with done := true, csErr := true }.cmdErr = false ∧
      { demo with done := true, csErr := true }.xferErr = false ∧ { demo with done := true, csErr := true }.csErr = true) ∧
    ({ demo with done := true }.done = true ∧ { demo with done := true }.cmdErr = false ∧
      { demo with done := true }.xferErr = false ∧ { demo with done := true }.csErr = false) := by decide

theorem witness_HostWritesDataRegister :
    ((demoWith [.host (wrd 15 0x5A#8)]).inputs = .host (wrd 15 0x5A#8) :: [] ∧
      (demoWith [.host (wrd 15 0x5A#8)]).phase = .idle) ∧
    ((demoXfer [.host (wrd 0 0x5A#8)]).inputs = .host (wrd 0 0x5A#8) :: [] ∧
      (demoXfer [.host (wrd 0 0x5A#8)]).phase ≠ .idle) := by decide

theorem witness_HostReadsDataRegister :
    ((demoWith [.host (rdd 15)]).inputs = .host (rdd 15) :: [] ∧ (demoWith [.host (rdd 15)]).phase = .idle) ∧
    ((demoXfer [.host (rdd 0)]).inputs = .host (rdd 0) :: [] ∧ (demoXfer [.host (rdd 0)]).phase ≠ .idle) := by decide

/-- The boundary numbers `0x02`, `0x0F`, `0x20`, `0xFF`, read and written. -/
theorem witness_ReservedRegistersReadZero :
    (∀ reg ∈ [0x02#8, 0x0F#8, 0x20#8, 0xFF#8],
      reg ≠ 0x00#8 ∧ reg ≠ 0x01#8 ∧ ¬(0x10 ≤ reg.toNat ∧ reg.toNat < 0x10 + Config.nmax)) ∧
    (demoWith [.host (.read 0x20#8)]).inputs = .host (.read 0x20#8) :: [] ∧
    (demoWith [.host (.write 0x0F#8 7#16)]).inputs = .host (.write 0x0F#8 7#16) :: [] := by decide

theorem witness_CmdReadsZeroAndStatusIgnoresWrites :
    (demoWith [.host (.read 0x00#8)]).inputs = .host (.read 0x00#8) :: [] ∧
    (demoWith [.host (.write 0x01#8 7#16)]).inputs = .host (.write 0x01#8 7#16) :: [] := by decide

theorem witness_BusyBlockDropsHostWrites :
    (demoXfer []).phase ≠ .idle ∧
    (demoXfer [.host (cmdWrite 0x4781#16)]).inputs = .host (cmdWrite 0x4781#16) :: [] ∧
    (demoXfer [.host (wrd 3 0x77#8)]).inputs = .host (wrd 3 0x77#8) :: [] ∧
    (demoXfer [.host (rdd 0)]).inputs = .host (rdd 0) :: [] ∧
    (demoXfer [.host rds]).inputs = .host rds :: [] := by decide

theorem witness_HostCannotChangeCommandInFlight :
    (demoXfer [.host (cmdWrite 0x4781#16)]).phase ≠ .idle ∧ cmdWrite 0x4781#16 ≠ .wait ∧
    (demoXfer [.host (cmdWrite 0x4781#16)]).inputs = .host (cmdWrite 0x4781#16) :: [] := by decide

theorem witness_ConverterWorksInAnyPhase :
    (demoXfer [.host (.convert 0x8000#16)]).inputs = .host (.convert 0x8000#16) :: [] := by decide

/-- The smallest and the largest magnitude. -/
theorem witness_ConverterBits :
    (0x0000#16).toInt = 0 ∧ (2 ^ 0 ≤ (0x0001#16).toInt.natAbs ∧ (0x0001#16).toInt.natAbs < 2 ^ (0 + 1)) ∧
    (2 ^ 15 ≤ (0x8000#16).toInt.natAbs ∧ (0x8000#16).toInt.natAbs < 2 ^ (15 + 1)) := by decide

theorem witness_ConverterInjectiveAndOrdered :
    i16ToF32 0x0000#16 = i16ToF32 0x0000#16 ∧
    ∃ p q : ℚ, binary32Value (i16ToF32 0x0000#16) = some p ∧ binary32Value (i16ToF32 0x0001#16) = some q := by
  refine ⟨rfl, 0, _, ?_, rfl⟩
  simp [binary32Value, i16ToF32]

theorem witness_ConverterResultShape :
    (0x8001#16 ≠ 0x0000#16 ∧ 0x8001#16 ≠ 0x8000#16) ∧ (0x7FFF#16 ≠ 0x0000#16 ∧ 0x7FFF#16 ≠ 0x8000#16) := by decide

/-- After an `IMU_POLL`, and after another command. -/
theorem witness_MotionDecodeGivesSixFloats :
    (∀ q, (demoPolledImu q).inputs = q ∧ (demoWith q).inputs = q) ∧
    ((demoPolledImu []).phase = .idle ∧ outcome (statusByte (demoPolledImu [])) = some .ok ∧
      lastCommand (demoPolledImu []).trace = some (.imuRd 0x22#7 12#5)) ∧
    lastCommand demo.trace ≠ some (.imuRd 0x22#7 12#5) :=
  ⟨fun _ => ⟨rfl, rfl⟩, by decide, by decide⟩

theorem witness_DecodeOfEncode :
    (Instr.imuRd 0x7F#7 16#5).wellFormed = true ∧ (Instr.imuWr 0x00#7 1#5).wellFormed = true ∧
    (Instr.tpWr 0x1F#7 1#5).wellFormed = true ∧ (Instr.tpRd 0x1F#7 16#5).wellFormed = true ∧
    (Instr.cvt 0xFFFF#16).wellFormed = true := by decide

theorem witness_EncodeOfDecode :
    decodeAt .cmd 0x7F90#16 = .ok (.imuRd 0x7F#7 16#5) ∧ decodeAt .converter 0xFFFF#16 = .ok (.cvt 0xFFFF#16) := by decide

theorem witness_FrameTables :
    legalFields .tpRd 0x1F#7 16#5 = true ∧ legalFields .tpWr 0x00#7 1#5 = true ∧ (1 : Nat) ≤ 17 := by decide

theorem witness_StepRunsDecodedInstruction :
    ((demoWith [.host (present .cmd 0x4781#16)]).inputs = .host (present .cmd 0x4781#16) :: [] ∧
      decodeAt .cmd 0x4781#16 = .ok (.imuRd 0x0F#7 1#5)) ∧
    decodeTableWord 16 (0x4781#16).toNat = some (.imuRd 0x0F#7 1#5) := by decide

/-- `demo` about to take a `CMD` write with nothing after it. -/
theorem witness_CommandWriteCases :
    (∀ a tail, ([] : List Input) ≠ .env (.answer a) :: tail) ∧
    ((demoXfer [.host (cmdWrite 0x4781#16)]).inputs = .host (cmdWrite 0x4781#16) :: [] ∧
      (demoXfer [.host (cmdWrite 0x4781#16)]).phase ≠ .idle) ∧
    ((demoWith [.host (cmdWrite 0x5100#16)]).inputs = .host (cmdWrite 0x5100#16) :: [] ∧
      (demoWith [.host (cmdWrite 0x5100#16)]).phase = .idle ∧ ∃ e, decodeAt .cmd 0x5100#16 = .error e) ∧
    ((demoWith [.host (cmdWrite 0x4781#16)]).inputs = .host (cmdWrite 0x4781#16) :: [] ∧
      (demoWith [.host (cmdWrite 0x4781#16)]).phase = .idle ∧ ∃ i, decodeAt .cmd 0x4781#16 = .ok i) := by
  refine ⟨?_, by decide, ⟨by decide, by decide, .zeroCount, by decide⟩, by decide, by decide, .imuRd 0x0F#7 1#5, by decide⟩
  intro a tail h
  cases h

theorem witness_IllegalWordIsRejected :
    (demoWith [.host (cmdWrite 0xD004#16), okAnswer 1]).phase = .idle ∧
    (demoWith [.host (cmdWrite 0xD004#16), okAnswer 1]).inputs = .host (cmdWrite 0xD004#16) :: [okAnswer 1] ∧
    decodeAt .cmd 0xD004#16 = .error .tpAddressTooWide := by decide

theorem witness_IllFormedCommandIsRejected :
    (demo.phase = .idle ∧ (Instr.command .tpWr 0x02#7 2#5).wellFormed = false) ∧ (demoXfer []).phase ≠ .idle := by decide

theorem witness_AssertStepRule :
    ((demoAssert [okAnswer 1]).phase = .assert ∧ (demoAssert [okAnswer 1]).inputs = okAnswer 1 :: []) ∧
    ((demoAssert [errAnswer]).phase = .assert ∧ (demoAssert [errAnswer]).inputs = errAnswer :: []) := by decide

/-- At index 0, a header index, and at the last index 5. -/
theorem witness_ExchangeStepRule :
    ∀ i ∈ [0#5, 5#5],
      (demoBusy .xfer i .low [] [okAnswer 1]).phase = .xfer ∧ legalFields .tpRd 0x14#7 4#5 = true ∧
      (demoBusy .xfer i .low [] [okAnswer 1]).idx.toNat < frameLength .tpRd 4#5 ∧
      (demoBusy .xfer i .low [] [okAnswer 1]).inputs = okAnswer 1 :: [] := by decide

theorem witness_FailedExchangeStepRule :
    (demoXfer [errAnswer]).phase = .xfer ∧ (demoXfer [errAnswer]).inputs = errAnswer :: [] := by decide

theorem witness_ReleaseStepRule :
    ((demoRelease [okAnswer 1]).phase = .release ∧ (demoRelease [okAnswer 1]).inputs = okAnswer 1 :: []) ∧
    ((demoRelease [errAnswer]).phase = .release ∧ (demoRelease [errAnswer]).inputs = errAnswer :: []) := by decide

/-- A state in `XFER` that meets the invariant. -/
theorem demoXfer_invariant (q : List Input) : invariant (demoXfer q) := by
  have hi : (0#5).toNat < frameLength .tpRd 4#5 := by decide
  have hl : legalFields .tpRd 0x14#7 4#5 = true := by decide
  refine ⟨⟨fun _ => hi, fun h => absurd rfl h⟩, fun _ => hl, ⟨fun _ => ⟨rfl, rfl⟩, ?_, ?_⟩,
    ⟨fun _ => ⟨rfl, rfl⟩, ?_⟩, ⟨.opened, rfl, rfl⟩, fun _ => rfl⟩
  · intro h; cases h
  · intro h; rcases h with h | h <;> cases h
  · intro h; cases h

theorem witness_OnlyTheListedMoves :
    invariant (demoXfer [okAnswer 1]) ∧ (demoXfer [okAnswer 1]).phase ≠ .idle ∧
    (demoXfer [okAnswer 1]).inputs = .env (.answer (.ok 1)) :: [] ∧ ∃ t, step (demoXfer [okAnswer 1]) = .next t :=
  ⟨demoXfer_invariant _, by decide, by decide, _, rfl⟩

theorem witness_UnansweredCallHangs :
    (demoXfer [.host rds, .host .wait]).phase ≠ .idle ∧
    ∀ x ∈ (demoXfer [.host rds, .host .wait]).inputs, ∃ op, x = .host op := by
  refine ⟨by decide, ?_⟩
  intro x hx
  simp only [demoXfer, demoBusy, List.mem_cons, List.not_mem_nil, or_false] at hx
  rcases hx with rfl | rfl
  · exact ⟨rds, rfl⟩
  · exact ⟨.wait, rfl⟩

theorem witness_ImuWriteTransaction :
    (demoWith (okAnswer 0 :: ([1#8, 2#8].map okAnswer ++ okAnswer 3 :: []))).phase = .idle ∧
    1 ≤ (1#5).toNat ∧ (1#5).toNat ≤ 16 ∧ [1#8, 2#8].length = (1#5).toNat + 1 ∧
    (demoWith (okAnswer 0 :: ([1#8, 2#8].map okAnswer ++ okAnswer 3 :: []))).inputs =
      okAnswer 0 :: ([1#8, 2#8].map okAnswer ++ okAnswer 3 :: []) := by decide

theorem witness_ImuReadTransaction :
    (demoWith (okAnswer 0 :: okAnswer 1 :: ((List.replicate 16 7#8).map okAnswer ++ okAnswer 3 :: []))).phase = .idle ∧
    1 ≤ (16#5).toNat ∧ (16#5).toNat ≤ 16 ∧ (List.replicate 16 7#8).length = (16#5).toNat ∧
    (demoWith (okAnswer 0 :: okAnswer 1 :: ((List.replicate 16 7#8).map okAnswer ++ okAnswer 3 :: []))).inputs =
      okAnswer 0 :: okAnswer 1 :: ((List.replicate 16 7#8).map okAnswer ++ okAnswer 3 :: []) := by decide

theorem witness_TouchpadWriteTransaction :
    (demoWith [okAnswer 0, okAnswer 1, okAnswer 2, okAnswer 3]).phase = .idle ∧ (0x1F#7).toNat < 32 ∧
    (demoWith [okAnswer 0, okAnswer 1, okAnswer 2, okAnswer 3]).inputs =
      okAnswer 0 :: okAnswer 1 :: okAnswer 2 :: okAnswer 3 :: [] := by decide

theorem witness_TouchpadReadTransaction :
    (demoWith (okAnswer 0 :: okAnswer 1 :: okAnswer 2 :: ([7#8].map okAnswer ++ okAnswer 3 :: []))).phase = .idle ∧
    (0x1F#7).toNat < 32 ∧ 1 ≤ (1#5).toNat ∧ (1#5).toNat ≤ 16 ∧ [7#8].length = (1#5).toNat ∧
    (demoWith (okAnswer 0 :: okAnswer 1 :: okAnswer 2 :: ([7#8].map okAnswer ++ okAnswer 3 :: []))).inputs =
      okAnswer 0 :: okAnswer 1 :: okAnswer 2 :: ([7#8].map okAnswer ++ okAnswer 3 :: []) := by decide

theorem witness_TransactionWithAllBytesExchanged :
    (demoWith (okAnswer 0 :: ([1#8, 2#8].map okAnswer ++ .env (.answer .err) :: []))).phase = .idle ∧
    legalFields .tpWr 0x02#7 1#5 = true ∧ [1#8, 2#8].length = frameLength .tpWr 1#5 ∧
    (demoWith (okAnswer 0 :: ([1#8, 2#8].map okAnswer ++ .env (.answer .err) :: []))).inputs =
      okAnswer 0 :: ([1#8, 2#8].map okAnswer ++ .env (.answer .err) :: []) := by decide

theorem witness_TransactionWithFailedAssert :
    (demoWith [errAnswer, .env (.answer .err)]).phase = .idle ∧ legalFields .imuRd 0x22#7 12#5 = true ∧
    (demoWith [errAnswer, .env (.answer .err)]).inputs = errAnswer :: .env (.answer .err) :: [] := by decide

/-- The failure at index 0. -/
theorem witness_TransactionWithFailedExchange :
    (demoWith (okAnswer 0 :: ([].map okAnswer ++ errAnswer :: .env (.answer .err) :: []))).phase = .idle ∧
    legalFields .imuRd 0x22#7 12#5 = true ∧ ([] : List Byte).length < frameLength .imuRd 12#5 ∧
    (demoWith (okAnswer 0 :: ([].map okAnswer ++ errAnswer :: .env (.answer .err) :: []))).inputs =
      okAnswer 0 :: ([].map okAnswer ++ errAnswer :: .env (.answer .err) :: []) := by decide

/-- Four answers for `TP_WR`, the second a failure. -/
def fourAnswers : List Answer := [.ok 0, .err, .ok 1, .err]

theorem witness_AnsweredTransactionEnds :
    (demoWith (fourAnswers.map (fun a => .env (.answer a)) ++ [])).phase = .idle ∧
    legalFields .tpWr 0x02#7 1#5 = true ∧ fourAnswers.length = frameLength .tpWr 1#5 + 2 ∧
    (demoWith (fourAnswers.map (fun a => .env (.answer a)) ++ [])).inputs =
      fourAnswers.map (fun a => .env (.answer a)) ++ [] := by decide

theorem witness_RunIsSingleSteps :
    (demoWith [okAnswer 0, .host rds, okAnswer 1]).phase = .idle ∧ legalFields .tpWr 0x02#7 1#5 = true := by decide

theorem witness_ReadsDoNotSendData : Op.isRead .imuRd = true ∧ Op.isRead .tpRd = true := by decide

/-- All answers during the loop, and all before it. -/
theorem witness_WaitEndsWhenCallsAreAnswered :
    ∀ p ∈ [(([] : List Answer), fourAnswers), (fourAnswers, [])],
      (demoWith (.host (issue (Instr.command .tpWr 0x02#7 1#5)) :: (p.1.map (fun a => .env (.answer a)) ++
        .host .wait :: (p.2.map (fun a => .env (.answer a)) ++ [])))).phase = .idle ∧
      legalFields .tpWr 0x02#7 1#5 = true ∧ p.1.length + p.2.length = frameLength .tpWr 1#5 + 2 ∧
      (demoWith (.host (issue (Instr.command .tpWr 0x02#7 1#5)) :: (p.1.map (fun a => .env (.answer a)) ++
        .host .wait :: (p.2.map (fun a => .env (.answer a)) ++ [])))).inputs =
        .host (issue (Instr.command .tpWr 0x02#7 1#5)) :: (p.1.map (fun a => .env (.answer a)) ++
          .host .wait :: (p.2.map (fun a => .env (.answer a)) ++ [])) := by decide

/-- `demo`, as after a reset, with a `WAIT` next and answers no call waits for. -/
theorem witness_WaitWithoutCommandNeverEnds :
    (demoWith [.host .wait, okAnswer 1]).phase = .idle ∧ (demoWith [.host .wait, okAnswer 1]).done = false ∧
    (demoWith [.host .wait, okAnswer 1]).inputs = .host .wait :: [okAnswer 1] := by decide

/-- Polled between the answers; the six calls still to come from index 1 of `TP_RD 0x14, 4` are all answered. -/
def demoPolled : State :=
  demoXfer [okAnswer 1, .host rds, okAnswer 2, okAnswer 3, .host rds, okAnswer 4, errAnswer, okAnswer 5, okAnswer 6]

theorem witness_PolledTransactionEnds :
    invariant demoPolled ∧ demoPolled.phase ≠ .idle ∧ (∃ t, step demoPolled = .next t) ∧
    (∀ x ∈ demoPolled.inputs, x ≠ .host .wait ∧ x ≠ .env .reset) ∧ callsLeft demoPolled ≤ answerCount demoPolled.inputs :=
  ⟨demoXfer_invariant _, by decide, ⟨_, rfl⟩, by decide, by decide⟩

/-- `IMU_RD 0x0F, 1`. -/
theorem witness_RunOneCommandReads :
    let q : List Input := .host (issue (Instr.command .imuRd 0x0F#7 1#5)) :: okAnswer 0 :: ([7#8, 0x69#8].map okAnswer ++
      okAnswer 1 :: .host .wait :: .host (.readResponse (1#5).toNat) :: [])
    (demoWith q).phase = .idle ∧ Op.isRead .imuRd = true ∧ legalFields .imuRd 0x0F#7 1#5 = true ∧
    [7#8, 0x69#8].length = frameLength .imuRd 1#5 ∧ (demoWith q).inputs = q := by decide

/-- `IMU_WR 0x10, 1` with payload `0x4C` (program P1, rows 4 to 6) and `TP_WR 0x02, 1` with payload `0x00` (program P3). -/
theorem witness_RunOneCommandWrites :
    ∀ p ∈ [(Op.imuWr, 0x10#7, [0x4C#8]), (Op.tpWr, 0x02#7, [0x00#8])],
      let q : List Input := (payloadWrites p.2.2).map .host ++ .host (issue (Instr.command p.1 p.2.1 1#5)) ::
        okAnswer 0 :: ([1#8, 2#8].map okAnswer ++ okAnswer 3 :: .host .wait :: [])
      (demoWith q).phase = .idle ∧ p.1.isRead = false ∧ legalFields p.1 p.2.1 1#5 = true ∧
      p.2.2.length = (1#5).toNat ∧ [1#8, 2#8].length = frameLength p.1 1#5 ∧ (demoWith q).inputs = q := by decide

/-- Each of the three ways to fail, for a read and for both writes. -/
theorem witness_RunOneCommandFails :
    demo.phase = .idle ∧ (Op.isRead .imuRd = true ∧ legalFields .imuRd 0x0F#7 1#5 = true) ∧
    (Op.isRead .imuWr = false ∧ legalFields .imuWr 0x10#7 1#5 = true) ∧
    (Op.isRead .tpWr = false ∧ legalFields .tpWr 0x02#7 1#5 = true) ∧ [0x4C#8].length = (1#5).toNat ∧
    (∀ op ∈ [Op.imuRd, Op.imuWr, Op.tpWr], failsWith op 1#5 [.err, .err] .chipSelectFailed ∧
      failsWith op 1#5 [.ok 1#8, .err, .err] .transferFailed ∧
      failsWith op 1#5 [.ok 1#8, .ok 2#8, .ok 3#8, .err] .chipSelectFailed) ∧
    ∀ q, (demoWith q).inputs = q := by
  refine ⟨by decide, by decide, by decide, by decide, by decide, ?_, fun _ => rfl⟩
  intro op hop
  have hL : frameLength op 1#5 = 2 := by
    revert op
    decide
  exact ⟨.inl ⟨.err, rfl, rfl⟩, .inr (.inl ⟨1#8, [], .err, by simp [hL], rfl, rfl⟩),
    .inr (.inr ⟨1#8, [2#8, 3#8], by simp [hL], rfl, rfl⟩)⟩

/-- In `XFER`, with the latched command's own record. -/
theorem witness_RecordedCommandIsTheLatchedOne :
    recordInvariant (demoBusy .xfer 0#5 .low [.command (.tpRd 0x14#7 4#5)] [okAnswer 1]) ∧
    ∃ t, step (demoBusy .xfer 0#5 .low [.command (.tpRd 0x14#7 4#5)] [okAnswer 1]) = .next t :=
  ⟨fun _ => rfl, _, rfl⟩

theorem witness_StepKeepsTheInvariant :
    invariant (demoXfer [okAnswer 1]) ∧ ∃ t, step (demoXfer [okAnswer 1]) = .next t :=
  ⟨demoXfer_invariant _, _, rfl⟩

/-- One step from reset ends a transaction in which the first exchange and `CsSet(high)` both fail. -/
theorem witness_FlagRelationsInEveryRun :
    ∃ t : State, Host.Core.run core 1
      { State.reset with inputs := [.host (cmdWrite 0x4781#16), okAnswer 0, errAnswer, errAnswer] } = .next t ∧
      (t.xferErr = true ∨ t.csErr = true) ∧ busy t = false :=
  ⟨_, rfl, .inl rfl, rfl⟩

/-- A state in `ASSERT` with the line high, after a `Reset`; the next step's one call succeeds. -/
theorem witness_LineIsLowExactlyInTheBracket :
    (demo.phase = .idle ∧ chipSelectIdle demo) ∧
    lineFollowsPhase (demoBusy .assert 0#5 .high [.reset none] [okAnswer 1]) ∧
    ∃ t, step (demoBusy .assert 0#5 .high [.reset none] [okAnswer 1]) = .next t ∧
      t.trace = [.reset none] ++ [.csSet .low true] ∧ ∀ e ∈ [TraceEvent.csSet .low true], soundEvent e = true := by
  refine ⟨⟨rfl, rfl⟩, ⟨fun _ => rfl, fun h => ?_⟩, _, rfl, rfl, by decide⟩
  rcases h with h | h <;> cases h

/-- In `RELEASE`, with the events that show `STATUS` = `0x01`. -/
theorem witness_StatusEventsShowTheRegister :
    statusShown (demoBusy .release 0#5 .low [.status 0x01#8, .csSet .low true] [okAnswer 1]).trace =
      statusByte (demoBusy .release 0#5 .low [.status 0x01#8, .csSet .low true] [okAnswer 1]) ∧
    ∃ t, step (demoBusy .release 0#5 .low [.status 0x01#8, .csSet .low true] [okAnswer 1]) = .next t :=
  ⟨by decide, _, rfl⟩

theorem witness_NoCallIsLost : ∃ t, step (demoXfer [.env .reset]) = .next t := ⟨_, rfl⟩

end Sys2Proof.Tests
end

section
/-! PROOF. 00_scope.md R7: the events show every change of `STATUS` (O57), and no call the environment has seen is lost
from them (O59). Both are properties that each shared operation keeps, so `step_keeps` carries them over a step. -/

namespace Sys2Proof.Proofs.Scope

open Sys2Proof.Machine

/-! ### The events show `STATUS` -/

/-- What a reader of the events takes `STATUS` to be is what it is (R7). -/
def statusIsShown (s : State) : Prop := statusShown s.trace = statusByte s

/-- An event that is no change of `STATUS` shows nothing of it. -/
theorem statusShown_append_of_ne_status (l : List TraceEvent) {e : TraceEvent} (h : ∀ v, e ≠ .status v) :
    statusShown (l ++ [e]) = statusShown l := by
  cases e with
  | status v => exact absurd rfl (h v)
  | command i => simp [statusShown]
  | csSet level ok => simp [statusShown]
  | xchg tx a => simp [statusShown]
  | reset c => simp [statusShown]
  | lateAnswer a => simp [statusShown]

/-- An action that adds one event other than a change of `STATUS`, and then records the change since it began, leaves the
events showing `STATUS` (log entry 6). -/
theorem statusIsShown_recordStatus {s u : State} {e : TraceEvent} (h : statusIsShown s)
    (hu : u.trace = s.trace ++ [e]) (he : ∀ v, e ≠ .status v) : statusIsShown (recordStatus (statusByte s) u) :=
  statusShown_append_change u.trace (statusByte s) (statusByte u) <| by
    rw [hu, statusShown_append_of_ne_status _ he]; exact h

@[simp] theorem forceRelease_trace (s : State) : (forceRelease s).trace = s.trace := by
  unfold forceRelease
  split <;> rfl

/-- Raising an error outcome adds no event (R186). -/
@[simp] theorem raise_trace (o : ErrorOutcome) (s : State) : (raise o s).trace = s.trace := by
  cases o <;> simp [raise]

@[simp] theorem advance_trace (s : State) : (advance s).trace = s.trace := by
  obtain ⟨-, e⟩ | ⟨-, e⟩ := advance_cases s <;> simp [e]

/-- The `ASSERT` step adds the event of its call, before the change of the flags (R92). -/
theorem assertStep_trace (a : Answer) (s : State) : (assertStep a s).trace = s.trace ++ [.csSet .low a.isOk] := by
  cases a <;> simp [assertStep]

/-- The `XFER` step adds the event of its call, before the change of the flags (R93, R94). -/
theorem xferStep_trace (a : Answer) (s : State) : (xferStep a s).trace = s.trace ++ [.xchg (nextByte s) a] := by
  cases a <;> simp [xferStep]

/-- The `RELEASE` step adds the event of its call, before the change of the flags (R95). -/
theorem releaseStep_trace (a : Answer) (s : State) : (releaseStep a s).trace = s.trace ++ [.csSet .high a.isOk] := by
  cases a <;> simp [releaseStep, releaseError]

theorem statusIsShown_framerStep (a : Answer) {s : State} (h : statusIsShown s) : statusIsShown (framerStep a s) := by
  unfold framerStep
  split
  · exact h
  · exact statusIsShown_recordStatus h (assertStep_trace a s) nofun
  · exact statusIsShown_recordStatus h (xferStep_trace a s) nofun
  · exact statusIsShown_recordStatus h (releaseStep_trace a s) nofun

theorem statusIsShown_acceptCommand (op : Op) (addr : BitVec 7) (n : BitVec 5) {s : State} (h : statusIsShown s) :
    statusIsShown (acceptCommand op addr n s) :=
  statusIsShown_recordStatus (e := .command (Instr.command op addr n)) h rfl nofun

/-- A rejection adds no event of its own: only the change of the flags (R183). -/
theorem statusIsShown_rejectCommand {s : State} (h : statusIsShown s) : statusIsShown (rejectCommand s) := by
  unfold rejectCommand
  split
  · exact statusShown_append_change s.trace (statusByte s) _ h
  · exact h

theorem statusIsShown_resetBlock {s : State} (h : statusIsShown s) : statusIsShown (resetBlock s) :=
  statusIsShown_recordStatus (e := .reset (pendingCall s)) h rfl nofun

theorem statusIsShown_discardAnswer (a : Answer) {s : State} (h : statusIsShown s) :
    statusIsShown (discardAnswer a s) := by
  obtain ⟨-, e⟩ | ⟨-, e⟩ := discardAnswer_cases a s
  · rw [e]
    exact (statusShown_append_of_ne_status s.trace (e := .lateAnswer a) nofun).trans h
  · rwa [e]

/-- Settles O57: `STATUS` and the events both start at `0x00`, and each indivisible action of the machine records the
change it makes of `STATUS`; what else a step does touches neither the flags nor the events. -/
theorem statusEventsShowTheRegister : Obligations.StatusEventsShowTheRegister := by
  refine ⟨by decide, fun s t h hs => ?_⟩
  exact step_keeps (P := statusIsShown)
    (inert := fun _ _ _ _ _ _ h => h)
    (framer := fun a _ _ h => statusIsShown_framerStep a h)
    (accept := fun op addr n _ _ _ h => statusIsShown_acceptCommand op addr n h)
    (reject := fun _ _ h => statusIsShown_rejectCommand h)
    (reset := fun _ h => statusIsShown_resetBlock h)
    (late := fun a _ h => statusIsShown_discardAnswer a h)
    (restore := fun _ _ _ h => h) h hs

/-! ### No call is lost -/

/-- In `IDLE` no call is pending: the calls seen are those of the events (R91). -/
theorem busCalls_idle {s : State} (h : s.phase = .idle) : busCalls s = calls s.trace := by
  simp [busCalls, pendingCall, h]

/-- A call that was pending and now stands among the events is not lost; what is pending now is new. -/
theorem busCalls_prefix_of_calls {s t : State} (h : calls t.trace = busCalls s) : busCalls s <+: busCalls t :=
  h ▸ List.prefix_append (calls t.trace) (pendingCall t).toList

/-- The pending call does not depend on the inputs, the host's log or the free values, nor on an idle block's data. -/
theorem busCalls_inert (s : State) {d : Vector Byte Config.nmax} (q : List Input) (l : List HostResult) (k : Nat)
    (hd : s.phase ≠ .idle → d = s.d) :
    busCalls { s with d := d, inputs := q, hostLog := l, draws := k } = busCalls s := by
  by_cases hp : s.phase = .idle
  · simp [busCalls_idle, hp]
  · obtain rfl := hd hp
    rfl

/-- The event of an accepted command is no call (R90). -/
theorem calls_acceptCommand (op : Op) (addr : BitVec 7) (n : BitVec 5) (s : State) :
    calls (acceptCommand op addr n s).trace = calls s.trace := by
  simp [callsOf]

/-- A rejection makes no call (R183). -/
theorem calls_rejectCommand (s : State) : calls (rejectCommand s).trace = calls s.trace := by
  unfold rejectCommand
  split <;> simp

/-- A late answer is no new call (R202). -/
theorem busCalls_discardAnswer (a : Answer) (s : State) : busCalls (discardAnswer a s) = busCalls s := by
  obtain ⟨-, e⟩ | ⟨-, e⟩ := discardAnswer_cases a s
  · have hcalls : calls (discardAnswer a s).trace = calls s.trace := by simp [e, callsOf]
    have hpending : pendingCall (discardAnswer a s) = pendingCall s := by rw [e]; rfl
    rw [busCalls, busCalls, hcalls, hpending]
  · rw [e]

/-- Settles O59: the calls seen before a step stand first, in their order, among those seen after it. A framer step and
a `Reset` put the pending call among the events, an accepted command comes where none is pending, and everything else
leaves the calls as they are. -/
theorem noCallIsLost : Obligations.NoCallIsLost := by
  intro s t hs
  have seen : busCalls s <+: busCalls t := step_keeps (P := fun u => busCalls s <+: busCalls u)
    (inert := fun u _ q l k hd h => busCalls_inert u q l k hd ▸ h)
    (framer := fun a u _ h => h.trans (busCalls_prefix_of_calls (framerStep_calls a u)))
    (accept := fun op addr n u hp _ h => h.trans
      (busCalls_prefix_of_calls ((calls_acceptCommand op addr n u).trans (busCalls_idle hp).symm)))
    (reject := fun u hp h => h.trans
      (busCalls_prefix_of_calls ((calls_rejectCommand u).trans (busCalls_idle hp).symm)))
    (reset := fun u h => h.trans (busCalls_prefix_of_calls (resetBlock_calls u)))
    (late := fun a u h => busCalls_discardAnswer a u ▸ h)
    (restore := fun _ _ _ h => h) List.prefix_rfl hs
  obtain ⟨more, hmore⟩ := seen
  exact ⟨more, hmore.symm⟩

end Sys2Proof.Proofs.Scope
end

section
/-! PROOF. 10_state.md: the invariant of the machine and that every step keeps it (O2, O49), the moves of the position
(O35), a command's run as single steps (O45), the flags and the outcome they report (O1, O5, O6, O50), the record of the
last command (O58), and the host's registers (O10, O11, O26). `ListedMove` says once where a framer step goes; the
invariant's position clause and the bound on the steps of a run both follow from it. -/

namespace Sys2Proof.Proofs.ControlState

open Sys2Proof.Machine Sys2Proof.Proofs.Scope

/-! ### The moves of the position -/

/-- The moves of R15: where a busy framer in `s` may stand in `t` once its call is answered by `a`. -/
def ListedMove (a : Answer) (s t : State) : Prop :=
  (s.phase = .assert ∧ a.isOk = true ∧ t.phase = .xfer ∧ t.idx = 0#5) ∨
  (s.phase = .assert ∧ a.isOk = false ∧ t.phase = .release ∧ t.idx = 0#5) ∨
  (s.phase = .xfer ∧ a.isOk = true ∧ s.idx.toNat + 1 < frameLength s.cOp s.cN ∧ t.phase = .xfer ∧
    t.idx.toNat = s.idx.toNat + 1) ∨
  (s.phase = .xfer ∧ a.isOk = true ∧ s.idx.toNat + 1 = frameLength s.cOp s.cN ∧ t.phase = .release ∧ t.idx = 0#5) ∨
  (s.phase = .xfer ∧ a.isOk = false ∧ t.phase = .release ∧ t.idx = 0#5) ∨
  (s.phase = .release ∧ t.phase = .idle ∧ t.idx = 0#5)

/-- The position is one R14 allows and a busy framer's command is legal: what the moves of R15 rest on. -/
def positioned (s : State) : Prop := positionInvariant s ∧ latchInvariant s

/-- A frame has a first byte (R63, R64). -/
theorem frameLength_pos (op : Op) (n : BitVec 5) : 0 < frameLength op n := by
  cases op <;> simp [frameLength]

theorem positionInvariant_of_xfer {s : State} (hp : s.phase = .xfer) (hi : s.idx.toNat < frameLength s.cOp s.cN) :
    positionInvariant s :=
  ⟨fun _ => hi, fun h => absurd hp h⟩

theorem positionInvariant_of_zero {s : State} (hi : s.idx = 0#5) : positionInvariant s :=
  ⟨fun _ => by rw [hi]; exact frameLength_pos _ _, fun _ => hi⟩

theorem positioned.idx_lt {s : State} (h : positioned s) (hp : s.phase = .xfer) :
    s.idx.toNat < frameLength s.cOp s.cN :=
  h.1.1 hp

theorem positioned.legal {s : State} (h : positioned s) (hb : s.phase ≠ .idle) :
    legalFields s.cOp s.cAddr s.cN = true :=
  h.2 hb

/-- A framer step makes a move of R15. In `XFER` the index stays below `L`, so the one after it is below `L` or `L`. -/
theorem framerStep_moves (a : Answer) {s : State} (h : positioned s) (hb : s.phase ≠ .idle) :
    ListedMove a s (framerStep a s) := by
  obtain ⟨rx, rfl, hp, e⟩ | ⟨rfl, hp, e⟩ | ⟨rx, rfl, hp, -⟩ | ⟨rfl, hp, e⟩ | ⟨rx, rfl, hp, e⟩ | ⟨rfl, hp, e⟩ :=
    framerStep_cases a hb
  · exact .inl ⟨hp, rfl, by simp [e], by simp [e]⟩
  · exact .inr (.inl ⟨hp, rfl, by simp [e], by simp [e]⟩)
  · obtain ⟨t, rfl, -, hnext, hlast⟩ := framerStep_exchange rx hp (h.legal hb)
    rcases Nat.lt_or_eq_of_le (h.idx_lt hp) with hlt | heq
    · exact .inr (.inr (.inl ⟨hp, rfl, hlt, hnext hlt⟩))
    · exact .inr (.inr (.inr (.inl ⟨hp, rfl, heq, hlast heq⟩)))
  · exact .inr (.inr (.inr (.inr (.inl ⟨hp, rfl, by simp [e], by simp [e]⟩))))
  · exact .inr (.inr (.inr (.inr (.inr ⟨hp, by simp [e], by simp [e]⟩))))
  · exact .inr (.inr (.inr (.inr (.inr ⟨hp, by simp [e], by simp [e]⟩))))

/-- Every listed move goes to a position of R14, and the latched command stays. -/
theorem positioned_framerStep (a : Answer) {s : State} (h : positioned s) (hb : s.phase ≠ .idle) :
    positioned (framerStep a s) := by
  refine ⟨?_, fun _ => by simpa using h.legal hb⟩
  obtain ⟨-, -, -, hi⟩ | ⟨-, -, -, hi⟩ | ⟨-, -, hlt, hx, hi⟩ | ⟨-, -, -, -, hi⟩ | ⟨-, -, -, hi⟩ | ⟨-, -, hi⟩ :=
    framerStep_moves a h hb
  · exact positionInvariant_of_zero hi
  · exact positionInvariant_of_zero hi
  · exact positionInvariant_of_xfer hx (by simpa [hi] using hlt)
  · exact positionInvariant_of_zero hi
  · exact positionInvariant_of_zero hi
  · exact positionInvariant_of_zero hi

/-- A framer step leaves fewer calls to make (R91). -/
theorem callsLeft_framerStep (a : Answer) {s : State} (h : positioned s) (hb : s.phase ≠ .idle) :
    callsLeft (framerStep a s) < callsLeft s := by
  have hL := frameLength_pos s.cOp s.cN
  obtain ⟨hp, -, ht, hi⟩ | ⟨hp, -, ht, -⟩ | ⟨hp, -, hlt, ht, hi⟩ | ⟨hp, -, hlast, ht, -⟩ | ⟨hp, -, ht, -⟩ |
      ⟨hp, ht, -⟩ := framerStep_moves a h hb
  · simp [callsLeft, hp, ht, hi]
  · simp [callsLeft, hp, ht]
  · simp only [callsLeft, hp, ht, hi, framerStep_cOp, framerStep_cN]
    omega
  · simp only [callsLeft, hp, ht]
    omega
  · have := h.idx_lt hp
    simp only [callsLeft, hp, ht]
    omega
  · simp [callsLeft, hp, ht]

/-- Settles O35: the step is the framer's step on the state with the answer taken. -/
theorem onlyTheListedMoves : Obligations.OnlyTheListedMoves := by
  intro s t a rest ⟨hpos, hlatch, _⟩ hb hq hs
  rw [step_env hq] at hs
  cases hs
  exact framerStep_moves a (s := setInputs rest s) ⟨hpos, hlatch⟩ hb

/-! ### The flags -/

/-- While busy, R18 asks that `DONE` and `CMD_ERR` be 0. -/
theorem flagInvariant_iff_of_busy {s : State} (hb : s.phase ≠ .idle) :
    flagInvariant s ↔ s.done = false ∧ s.cmdErr = false := by
  constructor
  · intro h
    exact h.1 (by simp [busy, hb])
  · rintro ⟨hd, hm⟩
    exact ⟨fun _ => ⟨hd, hm⟩, by simp [hm], by simp [busy, hb]⟩

/-- In `IDLE`, R18 asks that every error flag come with `DONE`, and `CMD_ERR` without another error. -/
theorem flagInvariant_iff_of_idle {s : State} (hp : s.phase = .idle) :
    flagInvariant s ↔ (s.cmdErr = true → s.done = true ∧ s.xferErr = false ∧ s.csErr = false) ∧
      (s.xferErr = true ∨ s.csErr = true → s.done = true) := by
  simp [flagInvariant, busy, hp]

theorem errorInvariant_of_noErrors {s : State} (hx : s.xferErr = false) (hc : s.csErr = false) : errorInvariant s :=
  ⟨fun _ => ⟨hx, hc⟩, by simp [hx]⟩

/-- In `RELEASE` one error may stand, not both. -/
theorem errorInvariant_of_release {s : State} (hp : s.phase = .release)
    (h : ¬(s.xferErr = true ∧ s.csErr = true)) : errorInvariant s :=
  ⟨by simp [hp], fun _ => h⟩

theorem errorInvariant_of_idle {s : State} (hp : s.phase = .idle) : errorInvariant s :=
  ⟨by simp [hp], by simp [hp]⟩

/-- A framer step keeps the relations of R18: it sets an error flag only on the way to `RELEASE`, where none stood, or
with `DONE`. -/
theorem flags_framerStep (a : Answer) {s : State} (h : positioned s) (hb : s.phase ≠ .idle) (hf : flagInvariant s)
    (he : errorInvariant s) : flagInvariant (framerStep a s) ∧ errorInvariant (framerStep a s) := by
  obtain ⟨hd, hm⟩ := (flagInvariant_iff_of_busy hb).mp hf
  obtain ⟨rx, rfl, hp, e⟩ | ⟨rfl, hp, e⟩ | ⟨rx, rfl, hp, -⟩ | ⟨rfl, hp, e⟩ | ⟨rx, rfl, hp, e⟩ | ⟨rfl, hp, e⟩ :=
    framerStep_cases a hb
  · obtain ⟨hx, hc⟩ := he.1 (.inl hp)
    exact ⟨(flagInvariant_iff_of_busy (by simp [e])).mpr (by simp [e, hd, hm]),
      errorInvariant_of_noErrors (by simp [e, hx]) (by simp [e, hc])⟩
  · obtain ⟨hx, -⟩ := he.1 (.inl hp)
    exact ⟨(flagInvariant_iff_of_busy (by simp [e])).mpr (by simp [e, hd, hm]),
      errorInvariant_of_release (by simp [e]) (by simp [e, hx])⟩
  · obtain ⟨hx, hc⟩ := he.1 (.inr hp)
    obtain ⟨t, rfl, ht, hnext, hlast⟩ := framerStep_exchange rx hp (h.legal hb)
    have hbusy : (framerStep (.ok rx) s).phase ≠ .idle := by
      rcases Nat.lt_or_eq_of_le (h.idx_lt hp) with hlt | heq
      · simp [(hnext hlt).1]
      · simp [(hlast heq).1]
    exact ⟨(flagInvariant_iff_of_busy hbusy).mpr (by rw [ht]; exact ⟨hd, hm⟩),
      errorInvariant_of_noErrors (by rw [ht]; exact hx) (by rw [ht]; exact hc)⟩
  · obtain ⟨-, hc⟩ := he.1 (.inr hp)
    exact ⟨(flagInvariant_iff_of_busy (by simp [e])).mpr (by simp [e, hd, hm]),
      errorInvariant_of_release (by simp [e]) (by simp [e, hc])⟩
  · exact ⟨(flagInvariant_iff_of_idle (by simp [e])).mpr (by simp [e, hm]), errorInvariant_of_idle (by simp [e])⟩
  · exact ⟨(flagInvariant_iff_of_idle (by simp [e])).mpr (by simp [e, hm]), errorInvariant_of_idle (by simp [e])⟩

/-! ### The chip-select bracket -/

theorem bracketAfter_append (b : Bracket) (l events : List TraceEvent) :
    bracketAfter b (l ++ events) = (bracketAfter b l).bind fun b' => bracketAfter b' events := by
  induction l generalizing b with
  | nil => rfl
  | cons e l ih =>
    cases hb : bracketNext b e with
    | none => simp [bracketAfter, hb]
    | some b' => simp [bracketAfter, hb, ih b']

/-- A change of `STATUS` is no bus event (R96). -/
@[simp] theorem bracketAfter_statusChange (b : Bracket) (before after : Byte) :
    bracketAfter b (statusChange before after) = some b := by
  unfold statusChange
  split
  · rfl
  · cases b <;> rfl

/-- One event added in a place where R96 allows it. -/
theorem bracketInvariant_event {s u : State} {e : TraceEvent} (h : bracketInvariant s) (hu : u.trace = s.trace ++ [e])
    (he : ∀ b, bracketFits s.phase b = true → ∃ b', bracketNext b e = some b' ∧ bracketFits u.phase b' = true) :
    bracketInvariant u := by
  obtain ⟨b, hb, hfit⟩ := h
  obtain ⟨b', hnext, hfit'⟩ := he b hfit
  exact ⟨b', by simp [hu, bracketAfter_append, hb, bracketAfter, hnext], hfit'⟩

theorem bracketInvariant_recordStatus (before : Byte) {s : State} (h : bracketInvariant s) :
    bracketInvariant (recordStatus before s) := by
  obtain ⟨b, hb, hfit⟩ := h
  exact ⟨b, by simp [bracketAfter_append, hb], hfit⟩

theorem bracketFits_idle_iff (b : Bracket) : bracketFits .idle b = true ↔ b = .closed := by
  cases b <;> simp [bracketFits]

theorem bracketFits_assert_iff (b : Bracket) : bracketFits .assert b = true ↔ b = .closed := by
  cases b <;> simp [bracketFits]

theorem bracketFits_xfer_iff (b : Bracket) : bracketFits .xfer b = true ↔ b = .opened := by
  cases b <;> simp [bracketFits]

theorem bracketFits_release_iff (b : Bracket) : bracketFits .release b = true ↔ b = .opened ∨ b = .closing := by
  cases b <;> simp [bracketFits]

/-- The call of a framer step is one that R96 allows where the phase stands, and the step's next phase stands where the
call leaves the bracket. -/
theorem bracketInvariant_framerStep (a : Answer) {s : State} (h : bracketInvariant s) :
    bracketInvariant (framerStep a s) := by
  unfold framerStep
  split
  next => exact h
  next hp =>
    refine bracketInvariant_recordStatus _ (bracketInvariant_event h (assertStep_trace a s) fun b hb => ?_)
    obtain rfl := (bracketFits_assert_iff b).mp (hp ▸ hb)
    cases a with
    | ok rx => exact ⟨.opened, rfl, rfl⟩
    | err => exact ⟨.closing, rfl, by simp [assertStep, raise, forceRelease, hp, bracketFits]⟩
  next hp =>
    refine bracketInvariant_recordStatus _ (bracketInvariant_event h (xferStep_trace a s) fun b hb => ?_)
    obtain rfl := (bracketFits_xfer_iff b).mp (hp ▸ hb)
    cases a with
    | ok rx =>
      refine ⟨.opened, rfl, ?_⟩
      obtain ⟨-, e⟩ | ⟨-, e⟩ := advance_cases (storeReceived rx (xchg (nextByte s) (.ok rx) s)) <;>
        simp [xferStep, e, bracketFits]
    | err => exact ⟨.closing, rfl, by simp [xferStep, raise, forceRelease, hp, bracketFits]⟩
  next hp =>
    refine bracketInvariant_recordStatus _ (bracketInvariant_event h (releaseStep_trace a s) fun b hb => ?_)
    obtain rfl | rfl := (bracketFits_release_iff b).mp (hp ▸ hb)
    · exact ⟨.closed, rfl, rfl⟩
    · exact ⟨.closed, rfl, rfl⟩

theorem bracketInvariant_acceptCommand (op : Op) (addr : BitVec 7) (n : BitVec 5) {s : State} (hp : s.phase = .idle)
    (h : bracketInvariant s) : bracketInvariant (acceptCommand op addr n s) := by
  refine bracketInvariant_recordStatus _ (bracketInvariant_event h rfl fun b hb => ?_)
  obtain rfl := (bracketFits_idle_iff b).mp (hp ▸ hb)
  exact ⟨.closed, rfl, rfl⟩

/-- A `Reset` closes the bracket: the call it abandons is the one the phase was to make (R202). -/
theorem bracketInvariant_resetBlock {s : State} (h : bracketInvariant s) : bracketInvariant (resetBlock s) := by
  refine bracketInvariant_recordStatus _ (bracketInvariant_event (e := .reset (pendingCall s)) h rfl fun b hb => ?_)
  cases hp : s.phase with
  | idle =>
    obtain rfl := (bracketFits_idle_iff b).mp (hp ▸ hb)
    exact ⟨.closed, by simp [pendingCall, hp, bracketNext], rfl⟩
  | assert =>
    obtain rfl := (bracketFits_assert_iff b).mp (hp ▸ hb)
    exact ⟨.closed, by simp [pendingCall, hp, bracketNext], rfl⟩
  | xfer =>
    obtain rfl := (bracketFits_xfer_iff b).mp (hp ▸ hb)
    exact ⟨.closed, by simp [pendingCall, hp, bracketNext], rfl⟩
  | release =>
    obtain rfl | rfl := (bracketFits_release_iff b).mp (hp ▸ hb)
    · exact ⟨.closed, by simp [pendingCall, hp, bracketNext], rfl⟩
    · exact ⟨.closed, by simp [pendingCall, hp, bracketNext], rfl⟩

theorem bracketInvariant_lateAnswer (a : Answer) {s : State} (h : bracketInvariant s) :
    bracketInvariant { s with trace := s.trace ++ [.lateAnswer a] } :=
  bracketInvariant_event h rfl fun b hb => ⟨b, by cases b <;> rfl, hb⟩

/-! ### The line -/

/-- A framer step comes to `XFER` by the `ok` of `CsSet(low)`, or from `XFER`, where the line is low already (R50). -/
theorem lineInvariant_framerStep (a : Answer) {s : State} (h : positioned s) (hb : s.phase ≠ .idle)
    (hline : lineInvariant s) : lineInvariant (framerStep a s) := by
  obtain ⟨rx, rfl, -, e⟩ | ⟨rfl, -, e⟩ | ⟨rx, rfl, hp, -⟩ | ⟨rfl, -, e⟩ | ⟨rx, rfl, -, e⟩ | ⟨rfl, -, e⟩ :=
    framerStep_cases a hb
  · simp [lineInvariant, e, lineAfter]
  · simp [lineInvariant, e]
  · obtain ⟨t, rfl, ht, -⟩ := framerStep_exchange rx hp (h.legal hb)
    intro _
    rw [ht]
    exact hline hp
  · simp [lineInvariant, e]
  · simp [lineInvariant, e]
  · simp [lineInvariant, e]

/-! ### The invariant -/

/-- In `IDLE` the invariant speaks of the index, the flags and the bracket alone. -/
theorem invariant_of_idle {s : State} (hp : s.phase = .idle) (hi : s.idx = 0#5) (hf : flagInvariant s)
    (hbr : bracketInvariant s) : invariant s :=
  ⟨positionInvariant_of_zero hi, fun h => absurd hp h, hf, errorInvariant_of_idle hp, hbr, by simp [lineInvariant, hp]⟩

theorem invariant_framerStep (a : Answer) {s : State} (hb : s.phase ≠ .idle) (h : invariant s) :
    invariant (framerStep a s) := by
  obtain ⟨hpos, hlatch, hf, he, hbr, hline⟩ := h
  obtain ⟨hpos', hlatch'⟩ := positioned_framerStep a ⟨hpos, hlatch⟩ hb
  obtain ⟨hf', he'⟩ := flags_framerStep a ⟨hpos, hlatch⟩ hb hf he
  exact ⟨hpos', hlatch', hf', he', bracketInvariant_framerStep a hbr,
    lineInvariant_framerStep a ⟨hpos, hlatch⟩ hb hline⟩

theorem invariant_acceptCommand {op : Op} {addr : BitVec 7} {n : BitVec 5} {s : State} (hp : s.phase = .idle)
    (hl : legalFields op addr n = true) (h : invariant s) : invariant (acceptCommand op addr n s) := by
  obtain ⟨-, -, -, -, hbr, -⟩ := h
  exact ⟨positionInvariant_of_zero rfl, fun _ => hl, (flagInvariant_iff_of_busy (by simp)).mpr ⟨rfl, rfl⟩,
    errorInvariant_of_noErrors rfl rfl, bracketInvariant_acceptCommand op addr n hp hbr, by simp [lineInvariant]⟩

/-- The state after a rejection while idle (R90, R183). -/
theorem rejectCommand_idle {s : State} (hp : s.phase = .idle) :
    rejectCommand s = recordStatus (statusByte s) { clearFlags s with cmdErr := true, done := true } := by
  simp [rejectCommand, hp, raise]

theorem invariant_rejectCommand {s : State} (hp : s.phase = .idle) (h : invariant s) :
    invariant (rejectCommand s) := by
  obtain ⟨⟨-, hidx⟩, -, -, -, hbr, -⟩ := h
  have hflags : flagInvariant (rejectCommand s) := by
    rw [rejectCommand_idle hp]
    exact (flagInvariant_iff_of_idle (by simp [hp])).mpr (by simp)
  rw [rejectCommand_idle hp] at hflags ⊢
  exact invariant_of_idle hp (hidx (by simp [hp])) hflags (bracketInvariant_recordStatus _ hbr)

theorem invariant_resetBlock {s : State} (h : invariant s) : invariant (resetBlock s) := by
  obtain ⟨-, -, -, -, hbr, -⟩ := h
  exact invariant_of_idle rfl rfl ((flagInvariant_iff_of_idle rfl).mpr (by simp)) (bracketInvariant_resetBlock hbr)

theorem invariant_discardAnswer (a : Answer) {s : State} (h : invariant s) : invariant (discardAnswer a s) := by
  obtain ⟨-, e⟩ | ⟨-, e⟩ := discardAnswer_cases a s
  · obtain ⟨hpos, hlatch, hf, he, hbr, hline⟩ := h
    rw [e]
    exact ⟨hpos, hlatch, hf, he, bracketInvariant_lateAnswer a hbr, hline⟩
  · rwa [e]

theorem invariant_restoreLine {s : State} (hp : s.phase = .idle) (h : invariant s) :
    invariant { s with csLine := .high } := by
  obtain ⟨⟨-, hidx⟩, -, hf, -, hbr, -⟩ := h
  exact invariant_of_idle hp (hidx (by simp [hp])) hf hbr

/-- Settles O49: every action of the machine keeps the invariant, so `step_keeps` carries it over a step. -/
theorem stepKeepsTheInvariant : Obligations.StepKeepsTheInvariant := by
  intro s t h hs
  exact step_keeps (P := invariant)
    (inert := fun _ _ _ _ _ _ h => h)
    (framer := fun a _ hb h => invariant_framerStep a hb h)
    (accept := fun _ _ _ _ hp hl h => invariant_acceptCommand hp hl h)
    (reject := fun _ hp h => invariant_rejectCommand hp h)
    (reset := fun _ h => invariant_resetBlock h)
    (late := fun a _ h => invariant_discardAnswer a h)
    (restore := fun _ hp _ h => invariant_restoreLine hp h) h hs

/-- Settles O2: the block is idle, all flags are 0 and no call has been made. -/
theorem resetSatisfiesInvariant : Obligations.ResetSatisfiesInvariant :=
  invariant_of_idle rfl rfl ((flagInvariant_iff_of_idle rfl).mpr (by simp [State.reset])) ⟨.closed, rfl, rfl⟩

/-! ### Every run from reset -/

theorem run_succ {s u : State} (k : Nat) (hs : step s = .next u) :
    Host.Core.run core (k + 1) s = Host.Core.run core k u := by
  simp [Host.Core.run, core, hs]

/-- What every step keeps, every run keeps. -/
theorem run_keeps {P : State → Prop} (keeps : ∀ s t, P s → step s = .next t → P t) (k : Nat) {s t : State} (h : P s)
    (hr : Host.Core.run core k s = .next t) : P t := by
  induction k generalizing s with
  | zero => cases hr; exact h
  | succ k ih =>
    cases hs : step s with
    | next u => exact ih (keeps s u h hs) ((run_succ k hs).symm.trans hr)
    | fault r => cases r
    | refused r => simp [Host.Core.run, core, hs] at hr

/-- Settles O50: the relations of R18 are a clause of the invariant, which holds at reset whatever is to come. In the run
that shows both errors, the first exchange of `IMU_RD 0x0F, 1` and then `CsSet(high)` fail. -/
theorem flagRelationsInEveryRun : Obligations.FlagRelationsInEveryRun := by
  refine ⟨fun inputs k t hr => ?_, ?_⟩
  · have hreset : invariant { State.reset with inputs := inputs } := resetSatisfiesInvariant
    obtain ⟨-, -, hf, -⟩ := run_keeps stepKeepsTheInvariant k hreset hr
    exact hf
  · exact ⟨[.host (cmdWrite 0x4781#16), okAnswer 0, errAnswer, errAnswer], 1, _, rfl, rfl, rfl⟩

/-! ### `STATUS` and the outcome -/

/-- Settles O1: the reset state has the values of R16 and R19 field by field. -/
theorem resetControlState : Obligations.ResetControlState :=
  ⟨rfl, rfl, rfl, rfl, rfl, rfl, rfl, rfl⟩

/-- `STATUS` bit by bit: the flags from bit 0 on, and zeros above them (R23). -/
theorem statusByte_getLsbD (s : State) (k : Nat) :
    (statusByte s).getLsbD k = [busy s, s.done, s.xferErr, s.csErr, s.cmdErr].getD k false := by
  simp only [statusByte, BitVec.getLsbD_append]
  match k with
  | 0 | 1 | 2 | 3 | 4 => simp
  | k + 5 =>
    rw [if_neg (by omega), if_neg (by omega), if_neg (by omega), if_neg (by omega), if_neg (by omega)]
    simp

/-- Settles O5: each bit by `statusByte_getLsbD`. -/
theorem statusBitPlaces : Obligations.StatusBitPlaces := by
  intro s
  refine ⟨statusByte_getLsbD s 0, statusByte_getLsbD s 1, statusByte_getLsbD s 2, statusByte_getLsbD s 3,
    statusByte_getLsbD s 4, BitVec.eq_of_getLsbD_eq fun i hi => ?_⟩
  rw [BitVec.getLsbD_extractLsb', statusByte_getLsbD, Nat.add_comm 5 i]
  simp

/-- The outcome that `STATUS` reports, in terms of the flags (R24). -/
theorem outcome_statusByte (s : State) : outcome (statusByte s) =
    if s.done then
      some (if s.cmdErr then .cmdRejected else if s.xferErr then .transferFailed
        else if s.csErr then .chipSelectFailed else .ok)
    else none := by
  obtain ⟨-, hd, hx, hc, hm, -⟩ := statusBitPlaces s
  rw [outcome, hd, hx, hc, hm]

/-- Settles O6: R24 asks for the flags in this order. -/
theorem outcomeReportsFirstError : Obligations.OutcomeReportsFirstError := by
  intro s
  rw [outcome_statusByte]
  refine ⟨?_, ?_, ?_, ?_, ?_⟩
  · intro hd; simp [hd]
  · intro hd hm; simp [hd, hm]
  · intro hd hm hx; simp [hd, hm, hx]
  · intro hd hm hx hc; simp [hd, hm, hx, hc]
  · intro hd hm hx hc; simp [hd, hm, hx, hc]

/-! ### A command's run as single steps -/

theorem setInputs_same {s : State} {q : List Input} (hq : s.inputs = q) : setInputs q s = s := by
  rw [← hq]
  rfl

/-- The run goes by the inputs it is given, not by those that stand in the state. -/
theorem runAnswers_setInputs (q q' : List Input) (s : State) : runAnswers q (setInputs q' s) = runAnswers q s := by
  induction q generalizing s with
  | nil => rfl
  | cons x q ih =>
    by_cases hp : s.phase = .idle
    · rw [runAnswers_idle _ hp, runAnswers_idle _ (s := setInputs q' s) hp]; rfl
    · cases x with
      | host op => rfl
      | env e =>
        cases e with
        | answer a => rw [runAnswers_answer a q hp, runAnswers_answer a q (s := setInputs q' s) hp,
            framerStep_withInputs, ih]
        | lateAnswer a => rfl
        | reset => rfl
        | restoreLine => rfl

/-- The run over the answers that come next is single steps of the machine, no more than the calls that are left (R91). -/
theorem runAnswers_eq_run (q : List Input) : ∀ s : State, s.inputs = q → positioned s →
    ∃ k, k ≤ callsLeft s ∧ Host.Core.run core k s = .next (runAnswers q s) := by
  induction q with
  | nil =>
    rintro s hq -
    exact ⟨0, Nat.zero_le _, congrArg Host.Outcome.next (setInputs_same hq).symm⟩
  | cons x q ih =>
    intro s hq h
    have stays (e : runAnswers (x :: q) s = setInputs (x :: q) s) :
        ∃ k, k ≤ callsLeft s ∧ Host.Core.run core k s = .next (runAnswers (x :: q) s) :=
      ⟨0, Nat.zero_le _, congrArg Host.Outcome.next (e.trans (setInputs_same hq)).symm⟩
    cases x with
    | host op => exact stays rfl
    | env e =>
      cases e with
      | answer a =>
        by_cases hp : s.phase = .idle
        · exact stays (runAnswers_idle _ hp)
        · have hstep : step s = .next (setInputs q (framerStep a s)) := by
            rw [step_env hq, takeEnvironment, framerStep_withInputs]
          obtain ⟨k, hk, hrun⟩ := ih (setInputs q (framerStep a s)) rfl (positioned_framerStep a h hp)
          refine ⟨k + 1, Nat.lt_of_le_of_lt hk (callsLeft_framerStep a h hp), ?_⟩
          rw [runAnswers_answer a q hp, ← runAnswers_setInputs q q]
          exact (run_succ k hstep).trans hrun
      | lateAnswer a => exact stays rfl
      | reset => exact stays rfl
      | restoreLine => exact stays rfl

/-- An accepted command changes `STATUS`: `BUSY` was 0 and is now 1 (R17, R90). -/
theorem statusChange_accept {s : State} (hp : s.phase = .idle) :
    statusChange (statusByte s) 0x01#8 = [.status 0x01#8] := by
  refine if_neg fun h => ?_
  obtain ⟨hbusy, -⟩ := statusBitPlaces s
  simp [← h, hp] at hbusy

/-- The state in which the framer begins a command, field by field (R90). -/
theorem acceptCommand_eq (op : Op) (addr : BitVec 7) (n : BitVec 5) {s : State} (hp : s.phase = .idle) :
    acceptCommand op addr n s =
      { s with done := false, xferErr := false, csErr := false, cmdErr := false,
               cOp := op, cAddr := addr, cN := n, phase := .assert, idx := 0#5,
               trace := s.trace ++ [.command (Instr.command op addr n), .status 0x01#8] } := by
  have htrace : (acceptCommand op addr n s).trace =
      s.trace ++ [.command (Instr.command op addr n), .status 0x01#8] := by
    simp [statusChange_accept hp]
  rw [← htrace]
  rfl

/-- Settles O45: `exec` accepts the command and runs over the answers that come next; in `ASSERT` the calls left are
`L + 2`. -/
theorem runIsSingleSteps : Obligations.RunIsSingleSteps := by
  intro s op addr n hp hl
  obtain ⟨k, hk, hrun⟩ := runAnswers_eq_run s.inputs (acceptCommand op addr n s) (acceptCommand_inputs op addr n s)
    ⟨positionInvariant_of_zero rfl, fun _ => hl⟩
  rw [acceptCommand_eq op addr n hp] at hrun
  refine ⟨k, hk, ?_⟩
  rw [exec_command, runCommand_legal hp hl, acceptCommand_eq op addr n hp]
  exact hrun.symm

/-! ### The record of the last command -/

/-- A call is no command. -/
theorem lastCommand_framerStep (a : Answer) (s : State) :
    lastCommand (framerStep a s).trace = lastCommand s.trace := by
  unfold framerStep
  split
  · rfl
  · simp [assertStep_trace, commandAfter]
  · simp [xferStep_trace, commandAfter]
  · simp [releaseStep_trace, commandAfter]

theorem recordInvariant_framerStep (a : Answer) {s : State} (hb : s.phase ≠ .idle) (h : recordInvariant s) :
    recordInvariant (framerStep a s) := by
  intro _
  rw [lastCommand_framerStep, framerStep_cOp, framerStep_cAddr, framerStep_cN]
  exact h (.inl (by simp [busy, hb]))

theorem recordInvariant_acceptCommand (op : Op) (addr : BitVec 7) (n : BitVec 5) (s : State) :
    recordInvariant (acceptCommand op addr n s) := by
  simp [recordInvariant, commandAfter]

/-- After a rejection `CMD_ERR` is 1, and the record says nothing. -/
theorem recordInvariant_rejectCommand {s : State} (hp : s.phase = .idle) : recordInvariant (rejectCommand s) := by
  simp [recordInvariant, rejectCommand_idle hp, busy, hp]

/-- After a `Reset` no command runs and none has ended. -/
theorem recordInvariant_resetBlock (s : State) : recordInvariant (resetBlock s) := by
  simp [recordInvariant, busy]

theorem recordInvariant_discardAnswer (a : Answer) {s : State} (h : recordInvariant s) :
    recordInvariant (discardAnswer a s) := by
  obtain ⟨-, e⟩ | ⟨-, e⟩ := discardAnswer_cases a s
  · rw [e]
    intro hs
    simpa [commandAfter] using h hs
  · rwa [e]

/-- Settles O58: an accepted command is recorded as it is latched, and nothing later in its run touches either. -/
theorem recordedCommandIsTheLatchedOne : Obligations.RecordedCommandIsTheLatchedOne := by
  refine ⟨by simp [recordInvariant, State.reset, busy], fun s t h hs => ?_⟩
  exact step_keeps (P := recordInvariant)
    (inert := fun _ _ _ _ _ _ h => h)
    (framer := fun a _ hb h => recordInvariant_framerStep a hb h)
    (accept := fun op addr n s _ _ _ => recordInvariant_acceptCommand op addr n s)
    (reject := fun _ hp _ => recordInvariant_rejectCommand hp)
    (reset := fun s _ => recordInvariant_resetBlock s)
    (late := fun a _ h => recordInvariant_discardAnswer a h)
    (restore := fun _ _ _ h => h) h hs

/-! ### The host's registers -/

@[simp] theorem hostRegister_cmd : hostRegister 0x00#8 = .cmd := rfl
@[simp] theorem hostRegister_status : hostRegister 0x01#8 = .status := rfl
@[simp] theorem hostRegister_dataRegister (i : Fin Config.nmax) : hostRegister (dataRegister i) = .data i := by
  revert i
  decide

/-- A `CMD` write (R143). -/
theorem hostStep_cmdWrite (w : Half) (s : State) : hostStep (cmdWrite w) s = writeCmd w s := by
  simp [hostStep, cmdWrite, writeRegister]

/-- `WRD` (R140): the register takes the byte, from the low half of the access (log entry 10). -/
theorem hostStep_wrd (i : Fin Config.nmax) (v : Byte) (s : State) :
    hostStep (wrd i v) s = .next (writeData i v s) := by
  simp [hostStep, wrd, writeRegister]

/-- `RDD` (R141). -/
theorem hostStep_rdd (i : Fin Config.nmax) (s : State) : hostStep (rdd i) s = .next (readData i s) := by
  simp [hostStep, rdd, readRegister]

/-- `RDS` (R142). -/
theorem hostStep_rds (s : State) : hostStep rds s = .next (readStatus s) := by
  simp [hostStep, rds, readRegister]

/-- The instruction of a legal command word is a framer command (R60, R62). -/
theorem decodeCmd_ok {w : Half} {i : Instr} (h : decodeCmd w = .ok i) :
    i = Instr.command (opField w) (addrField w) (nField w) := by
  unfold decodeCmd at h
  repeat' split at h
  all_goals cases h
  rfl

/-- Every word written to `CMD` while busy is dropped, legal or not (R90, R26). -/
theorem writeCmd_busy {s : State} (w : Half) (hb : s.phase ≠ .idle) : writeCmd w s = .next s := by
  unfold writeCmd
  split
  next i hi => rw [decodeCmd_ok hi, exec_command, runCommand_busy _ _ _ hb]
  next => simp [rejectCommand, hb]

theorem writeData_busy {s : State} (i : Fin Config.nmax) (v : Byte) (hb : s.phase ≠ .idle) : writeData i v s = s := by
  simp [writeData, hb]

/-- Settles O10: by the two registers' numbers. -/
theorem cmdReadsZeroAndStatusIgnoresWrites : Obligations.CmdReadsZeroAndStatusIgnoresWrites := by
  intro s rest
  constructor
  · intro hq
    rw [step_host hq, hostStep, readRegister, hostRegister_cmd]
    rfl
  · intro v hq
    rw [step_host hq, hostStep, writeRegister, hostRegister_status]
    rfl

/-- Settles O11: each of the four accesses, on the state with the access taken, which is busy as well. -/
theorem busyBlockDropsHostWrites : Obligations.BusyBlockDropsHostWrites := by
  intro s rest hb
  have hb' : (setInputs rest s).phase ≠ .idle := hb
  refine ⟨fun w hq => ?_, fun i v hq => ?_, fun i hq => ?_, fun hq => ?_⟩
  · rw [step_host hq, hostStep_cmdWrite, writeCmd_busy w hb']
    rfl
  · rw [step_host hq, hostStep_wrd, writeData_busy i v hb']
    rfl
  · rw [step_host hq, hostStep_rdd]
    exact ⟨dataValue i (setInputs rest s), _, rfl⟩
  · rw [step_host hq, hostStep_rds]
    rfl

/-! ### Presenting a word -/

/-- Presenting 16 bits at a port runs the instruction they decode to there (R143, R145). -/
theorem hostStep_present {p : Port} {w : Half} {i : Instr} (h : decodeAt p w = .ok i) (s : State) :
    hostStep (present p w) s = exec i s := by
  cases p with
  | cmd => rw [present, hostStep_cmdWrite, writeCmd, h]
  | converter => rw [present, hostStep, presentConverter, h]

/-- The word of the table with the number of `w` is `w`. -/
theorem tableWord_toNat (w : Half) : BitVec.ofNat 16 (w.toNat % 2 ^ 16) = w := by
  rw [Nat.mod_eq_of_lt w.isLt, BitVec.ofNat_toNat, BitVec.setWidth_eq]

/-- A word of the table is read at the port its masks give it (log entry 2). -/
theorem decodeAt_of_decodeTableWord {w : Half} {i : Instr} (h : decodeTableWord 16 w.toNat = some i) :
    decodeAt (tablePort w) w = .ok i := by
  simp only [decodeTableWord, tableWord_toNat] at h
  split at h
  next j hj => cases h; exact hj
  next => cases h

/-- The input that stands for a word of the table presents it at that port (log entry 2). -/
theorem fetchInput_eq (w : Half) : fetchInput 16 w.toNat = .host (present (tablePort w) w) := by
  simp only [fetchInput, tableWord_toNat]

/-- Settles O26: the step performs the host operation, and what follows it in the inputs is what followed. -/
theorem stepRunsDecodedInstruction : Obligations.StepRunsDecodedInstruction := by
  constructor
  · intro s p w i rest hq hi
    rw [step_host hq, hostStep_present hi]
    rfl
  · intro s w i hi
    have hq : (s.withFetchWord 16 w.toNat).inputs = .host (present (tablePort w) w) :: s.inputs := by
      simp [State.withFetchWord, fetchInput_eq]
    rw [step_host hq, hostStep_present (decodeAt_of_decodeTableWord hi)]
    rfl

end Sys2Proof.Proofs.ControlState
end

section
/-! PROOF. 20_memory.md: the host is an observer of a command in flight. No host operation changes it (R56, O12), and while
the environment gives no answer it stays where it is for ever (R58, O36). `hostStep_onlyHostActs` says once what a host
operation can do to a busy block; the step of O12 and the runs of O36 both follow from it. -/

namespace Sys2Proof.Proofs.Memory

open Sys2Proof.Machine Sys2Proof.Proofs.ControlState

/-! ### States that differ only in what is to come and what the host has seen -/

/-- The block of `s` and `t` is the same: data, position, flags, latched command, line and events. -/
def sameBlock (s t : State) : Prop :=
  t = { s with inputs := t.inputs, hostLog := t.hostLog, draws := t.draws }

theorem sameBlock.trans {s u t : State} (hu : sameBlock s u) (ht : sameBlock u t) : sameBlock s t := by
  unfold sameBlock at hu ht ⊢
  rw [hu] at ht
  exact ht

theorem sameBlock.phase {s t : State} (h : sameBlock s t) : t.phase = s.phase := by
  unfold sameBlock at h
  rw [h]

/-- `BUSY` is bit 0 of `STATUS` (R23). -/
theorem statusByte_busy {s : State} (hb : s.phase ≠ .idle) : (statusByte s).getLsbD 0 = true := by
  rw [statusByte_getLsbD]
  simp [busy, hb]

/-! ### Host operations that leave the block as it is -/

/-- The outcome of a host action on `s` that leaves the block as it is and at most puts more of the host's own operations
before what is to come. -/
def onlyHostActs (s : State) (o : Host.Outcome State Fault Refusal) : Prop :=
  ∃ t, o = .next t ∧ sameBlock s t ∧ ∃ more : List HostOp, t.inputs = more.map .host ++ s.inputs

theorem onlyHostActs_unchanged (s : State) : onlyHostActs s (.next s) := ⟨s, rfl, rfl, [], rfl⟩

/-- The host receives something, and perhaps a free value is drawn for it. -/
theorem onlyHostActs_log (s : State) (l : List HostResult) (k : Nat) :
    onlyHostActs s (.next { s with hostLog := l, draws := k }) :=
  ⟨_, rfl, rfl, [], rfl⟩

theorem onlyHostActs_continues (ops : List HostOp) (s : State) : onlyHostActs s (.next (hostContinues ops s)) :=
  ⟨_, rfl, rfl, ops, rfl⟩

/-- A busy block drops every register write, whatever its number (R26, R140, R143, R144). -/
theorem writeRegister_busy {s : State} (reg : BitVec 8) (v : Half) (hb : s.phase ≠ .idle) :
    writeRegister reg v s = .next s := by
  unfold writeRegister
  split
  · exact writeCmd_busy v hb
  · rfl
  · rw [writeData_busy _ _ hb]
  · rfl

/-- A register read, whatever its number, gives the host a value (R141 to R144). -/
theorem onlyHostActs_readRegister (reg : BitVec 8) (s : State) : onlyHostActs s (.next (readRegister reg s)) := by
  unfold readRegister
  split
  · exact onlyHostActs_log s _ s.draws
  · exact onlyHostActs_log s _ s.draws
  · exact onlyHostActs_log s _ _
  · exact onlyHostActs_log s _ s.draws

theorem onlyHostActs_readResponse (n : Nat) (s : State) : onlyHostActs s (.next (readResponse n s)) := by
  obtain ⟨-, e⟩ | ⟨-, e⟩ := readResponse_cases n s
  · rw [e]; exact onlyHostActs_continues (responseReads n) s
  · rw [e]; exact onlyHostActs_unchanged s

theorem onlyHostActs_decodeMotion (s : State) : onlyHostActs s (.next (decodeMotion s)) := by
  obtain ⟨-, e⟩ | ⟨-, e⟩ := decodeMotion_cases s
  · rw [e]; exact onlyHostActs_continues motionConversions s
  · rw [e]; exact onlyHostActs_unchanged s

/-- A turn of `WAIT` is an `RDS` and nothing more, where no event of the environment or the platform comes next (R71). -/
theorem onlyHostActs_waitTurn {s : State} (hq : ∀ e rest, s.inputs ≠ .env e :: rest) :
    onlyHostActs s (.next (waitTurn s)) := by
  obtain ⟨-, e⟩ | ⟨-, -, e⟩ | ⟨-, ev, rest, h, -⟩ := waitTurn_cases s
  · rw [e]; exact onlyHostActs_log s _ s.draws
  · rw [e]; exact ⟨_, rfl, rfl, [.wait], rfl⟩
  · exact absurd h (hq ev rest)

/-- What a host operation can do while the block is busy; for `WAIT`, where the environment does not act in its turn. -/
theorem hostStep_onlyHostActs {s : State} (op : HostOp) (hb : s.phase ≠ .idle)
    (hw : op = .wait → ∀ e rest, s.inputs ≠ .env e :: rest) : onlyHostActs s (hostStep op s) := by
  cases op with
  | write reg v => rw [hostStep, writeRegister_busy reg v hb]; exact onlyHostActs_unchanged s
  | read reg => exact onlyHostActs_readRegister reg s
  | convert x => exact onlyHostActs_log s _ s.draws
  | convertSample k => exact onlyHostActs_log s _ _
  | wait => exact onlyHostActs_waitTurn (hw rfl)
  | readResponse n => exact onlyHostActs_readResponse n s
  | motionDecode => exact onlyHostActs_decodeMotion s

/-- The step that takes a host operation, for a busy block. -/
theorem step_onlyHostActs {s : State} {op : HostOp} {rest : List Input} (hb : s.phase ≠ .idle)
    (hq : s.inputs = .host op :: rest) (hw : op = .wait → ∀ e more, rest ≠ .env e :: more) :
    ∃ t, step s = .next t ∧ sameBlock s t ∧ ∃ more : List HostOp, t.inputs = more.map .host ++ rest := by
  rw [step_host hq]
  exact hostStep_onlyHostActs (s := setInputs rest s) op hb hw

/-- Settles O12: `WAIT` apart, what comes after the host operation makes no difference. -/
theorem hostCannotChangeCommandInFlight : Obligations.HostCannotChangeCommandInFlight := by
  intro s op rest hb hop hq
  exact step_onlyHostActs hb hq fun hw => absurd hw hop

/-! ### Calls that are never answered -/

/-- Nothing but host operations is to come: the environment does not answer. -/
def onlyHost (q : List Input) : Prop := ∀ x ∈ q, ∃ op, x = .host op

theorem onlyHost.ne_env {q : List Input} (h : onlyHost q) (e : EnvEvent) (rest : List Input) : q ≠ .env e :: rest := by
  rintro rfl
  obtain ⟨op, hop⟩ := h (.env e) List.mem_cons_self
  cases hop

theorem onlyHost_append {q : List Input} (more : List HostOp) (h : onlyHost q) : onlyHost (more.map .host ++ q) := by
  intro x hx
  obtain hm | hm := List.mem_append.mp hx
  · obtain ⟨op, -, rfl⟩ := List.mem_map.mp hm
    exact ⟨op, rfl⟩
  · exact h x hm

/-- A step of a busy block whose calls nobody answers changes nothing of it, and leaves them unanswered. -/
theorem step_unanswered {s : State} (hb : s.phase ≠ .idle) (h : onlyHost s.inputs) :
    ∃ t, step s = .next t ∧ sameBlock s t ∧ onlyHost t.inputs := by
  cases hq : s.inputs with
  | nil => exact ⟨s, step_nil hq, rfl, h⟩
  | cons x rest =>
    rw [hq] at h
    obtain ⟨op, rfl⟩ := h x List.mem_cons_self
    have hrest : onlyHost rest := fun y hy => h y (List.mem_cons_of_mem _ hy)
    obtain ⟨t, hs, hsame, more, hmore⟩ := step_onlyHostActs hb hq fun _ => hrest.ne_env
    exact ⟨t, hs, hsame, hmore ▸ onlyHost_append more hrest⟩

/-- No number of steps moves a busy framer whose call nobody answers. -/
theorem run_unanswered (k : Nat) {s : State} (hb : s.phase ≠ .idle) (h : onlyHost s.inputs) :
    ∃ t, Host.Core.run core k s = .next t ∧ sameBlock s t := by
  induction k generalizing s with
  | zero => exact ⟨s, rfl, rfl⟩
  | succ k ih =>
    obtain ⟨u, hs, hsame, hu⟩ := step_unanswered hb h
    obtain ⟨t, hr, ht⟩ := ih (hsame.phase ▸ hb) hu
    exact ⟨t, (run_succ k hs).trans hr, hsame.trans ht⟩

/-- Settles O36: the run leaves the block as it is, so it is in its phase, and that is not `IDLE`. -/
theorem unansweredCallHangs : Obligations.UnansweredCallHangs := by
  intro s k hb h
  obtain ⟨t, hr, hsame⟩ := run_unanswered k hb h
  exact ⟨t, hr, hsame, statusByte_busy (hsame.phase ▸ hb)⟩

end Sys2Proof.Proofs.Memory
end

section
/-! PROOF. 30_encoding.md: the decoder and the encoder are inverse to each other (O20, O21), the decoder accepts the words
R62 calls legal (O22, O23), the command words of the pseudo-instructions (O24), the frame tables (O25), `MOTION_DECODE`
(O19) and `WAIT` (O47, O48). `decodeCmd_ok_iff` says once what the decoder accepts at `CMD`, and the three statements about
decoding follow from it. `running.framerStep` says what an answer does to a command in progress; that the `WAIT` of O47
ends, by `waitEndsWithin` step by step, rests on it. -/

namespace Sys2Proof.Proofs.Encoding

open Sys2Proof.Machine Sys2Proof.Laws.EncodedFields Sys2Proof.Proofs.ControlState

/-! ### An instruction is a framer command or a `CVT` -/

theorem command_or_cvt (i : Instr) : (∃ op addr n, i = Instr.command op addr n) ∨ ∃ x, i = .cvt x := by
  cases i with
  | imuWr addr n => exact .inl ⟨.imuWr, addr, n, rfl⟩
  | imuRd addr n => exact .inl ⟨.imuRd, addr, n, rfl⟩
  | tpWr addr n => exact .inl ⟨.tpWr, addr, n, rfl⟩
  | tpRd addr n => exact .inl ⟨.tpRd, addr, n, rfl⟩
  | cvt x => exact .inr ⟨x, rfl⟩

@[simp] theorem port_command (op : Op) (addr : BitVec 7) (n : BitVec 5) : (Instr.command op addr n).port = .cmd := by
  cases op <;> rfl

@[simp] theorem wellFormed_command (op : Op) (addr : BitVec 7) (n : BitVec 5) :
    (Instr.command op addr n).wellFormed = legalFields op addr n := by
  cases op <;> rfl

@[simp] theorem encode_command (op : Op) (addr : BitVec 7) (n : BitVec 5) :
    encode (Instr.command op addr n) = encodeFields op addr n := by
  cases op <;> rfl

/-! ### What the decoder accepts at `CMD` -/

/-- The decoder accepts the words with zero reserved bits and legal fields, and gives the command with these fields
(R62). -/
theorem decodeCmd_ok_iff (w : Half) (i : Instr) :
    decodeCmd w = .ok i ↔ reservedField w = 0#2 ∧ legalFields (opField w) (addrField w) (nField w) = true ∧
      i = Instr.command (opField w) (addrField w) (nField w) := by
  constructor
  · intro h
    have hi := decodeCmd_ok h
    unfold decodeCmd at h
    iterate 5 (split at h; · cases h)
    simp_all [legalFields]
  · rintro ⟨hr, hl, rfl⟩
    simp only [legalFields, Bool.and_eq_true] at hl
    obtain ⟨⟨⟨hzero, hrange⟩, hfits⟩, hsingle⟩ := hl
    simp [decodeCmd, hr, hzero, hrange, hfits, hsingle]

/-- The command word of legal fields decodes to the command with these fields. -/
theorem decodeCmd_encodeFields {op : Op} {addr : BitVec 7} {n : BitVec 5} (h : legalFields op addr n = true) :
    decodeCmd (encodeFields op addr n) = .ok (Instr.command op addr n) := by
  rw [decodeCmd_ok_iff, opField_encodeFields, addrField_encodeFields, nField_encodeFields]
  exact ⟨reservedField_encodeFields op addr n, h, rfl⟩

/-- Settles O20: the fields of a command's word stand where the decoder reads them (`decodeCmd_encodeFields`), and the
operand of a `CVT` is the whole word. -/
theorem decodeOfEncode : Obligations.DecodeOfEncode := by
  intro i hi
  obtain ⟨op, addr, n, rfl⟩ | ⟨x, rfl⟩ := command_or_cvt i
  · rw [wellFormed_command] at hi
    rw [port_command, encode_command]
    exact decodeCmd_encodeFields hi
  · rfl

/-- The two bits of the `op` field are bits 15:14 of the word (R60). -/
theorem opField_bits (w : Half) : (opField w).bits = w.extractLsb' 14 2 := by
  apply BitVec.eq_of_getLsbD_eq
  intro i hi
  rw [BitVec.getLsbD_extractLsb', opField]
  match i with
  | 0 | 1 => cases w.getLsbD 15 <;> cases w.getLsbD 14 <;> simp [Op.bits]

/-- The fields, with the reserved bits between them, are the whole word (R60). -/
theorem encodeFields_of_fields {w : Half} (h : reservedField w = 0#2) :
    encodeFields (opField w) (addrField w) (nField w) = w := by
  have hword : w.extractLsb' 14 2 ++ w.extractLsb' 7 7 ++ w.extractLsb' 5 2 ++ w.extractLsb' 0 5 = w := by
    rw [BitVec.extractLsb'_append_extractLsb'_eq_extractLsb' (by rfl),
      BitVec.extractLsb'_append_extractLsb'_eq_extractLsb' (by rfl),
      BitVec.extractLsb'_append_extractLsb'_eq_extractLsb' (by rfl)]
    exact BitVec.extractLsb'_eq_self
  rw [encodeFields, opField_bits, ← h]
  exact hword

/-- Settles O21: what decodes at `CMD` is the command with the word's own fields, and those make up the word. -/
theorem encodeOfDecode : Obligations.EncodeOfDecode := by
  intro p w i h
  cases p with
  | cmd =>
    obtain ⟨hr, hl, rfl⟩ := (decodeCmd_ok_iff w i).mp h
    exact ⟨by rwa [wellFormed_command], port_command _ _ _, by rw [encode_command, encodeFields_of_fields hr]⟩
  | converter =>
    cases h
    exact ⟨rfl, rfl, rfl⟩

/-! ### `legal(w)` bit by bit -/

theorem bits_eq_tpWr_iff (op : Op) : op.bits = 0b10#2 ↔ op = .tpWr := by
  cases op <;> decide

/-- A TP-style word is one with bit 15 set (R60). -/
theorem style_opField (w : Half) : (opField w).style = if w.getLsbD 15 then .tp else .imu := by
  unfold opField
  cases w.getLsbD 15 <;> cases w.getLsbD 14 <;> rfl

theorem addressFits_iff (op : Op) (addr : BitVec 7) :
    addressFits op addr = true ↔ op.style = .imu ∨ addr.toNat < 32 := by
  cases op <;> simp [addressFits, Op.style]

theorem singlePayload_iff (op : Op) (n : BitVec 5) : singlePayload op n = true ↔ op ≠ .tpWr ∨ n.toNat = 1 := by
  cases op <;> simp [singlePayload]

/-- The address fits 5 bits exactly when bits 13:12 of the word are 0 (R62). -/
theorem addrField_lt_iff (w : Half) : (addrField w).toNat < 32 ↔ w.extractLsb' 12 2 = 0b00#2 := by
  rw [← BitVec.toNat_inj]
  simp only [addrField, BitVec.extractLsb'_toNat, Nat.shiftRight_eq_div_pow, BitVec.toNat_ofNat]
  omega

/-- Settles O22: the clauses of `legalFields` on the word's fields are R62's clauses on its bits. -/
theorem legalWordsAreThoseDecoded : Obligations.LegalWordsAreThoseDecoded := by
  intro w
  have hstyle : (opField w).style = .imu ↔ w.getLsbD 15 = false := by
    rw [style_opField]
    cases w.getLsbD 15 <;> simp
  have hwrite : opField w ≠ .tpWr ↔ w.extractLsb' 14 2 ≠ 0b10#2 := by
    rw [← opField_bits, Ne, Ne, bits_eq_tpWr_iff]
  calc (∃ i, decodeAt .cmd w = .ok i)
      ↔ reservedField w = 0#2 ∧ legalFields (opField w) (addrField w) (nField w) = true := by
        simp [decodeAt, decodeCmd_ok_iff]
    _ ↔ _ := by
        simp only [legalFields, Bool.and_eq_true, addressFits_iff, singlePayload_iff, hstyle, hwrite, addrField_lt_iff,
          countNonzero, countInRange, decide_eq_true_eq, and_assoc]
        rfl

/-! ### Sample words, pseudo-instructions, frames -/

/-- Settles O23: each word's fields, by evaluation of the decoder. -/
theorem sampleWordsDecode : Obligations.SampleWordsDecode :=
  ⟨rfl, rfl, rfl, rfl, rfl, rfl, rfl, rfl, rfl, rfl⟩

/-- Settles O24: the payload, if any, is whatever the host was given; the command word is a constant of the table. -/
theorem pseudoInstructionsExpand : Obligations.PseudoInstructionsExpand :=
  ⟨rfl, fun _ => rfl, fun _ => rfl, fun _ => rfl, rfl, fun _ => rfl, rfl, fun _ => rfl, fun _ => rfl, fun _ => rfl, rfl⟩

/-- A frame has a byte after byte 0 (R64). -/
theorem two_le_frameLength {op : Op} {addr : BitVec 7} {n : BitVec 5} (h : legalFields op addr n = true) :
    2 ≤ frameLength op n := by
  have hn := (legalFields_count h).1
  have hhdr := (headerLength_pos op).1
  rw [frameLength_eq h]
  omega

/-- Settles O25: the tables of R63 and R64 are the definitions' own; the payload bytes of R65 by `frameByte_of_pos`. -/
theorem frameTables : Obligations.FrameTables := by
  refine ⟨fun addr => ⟨rfl, rfl, rfl, rfl⟩, ⟨rfl, rfl, rfl, rfl⟩, fun n => ⟨rfl, rfl, rfl, rfl⟩,
    fun op addr n h => ⟨two_le_frameLength h, frameLength_le h, frameLength_eq h⟩, fun addr d => ⟨?_, ?_, ?_, ?_, ?_⟩⟩
  · exact fun op => rfl
  · exact fun j => (if_neg (Nat.succ_ne_zero j)).trans (dataAt_of_lt d j.isLt)
  · exact fun i hi => if_neg (Nat.ne_of_gt hi)
  · exact dataAt_of_lt d (Nat.zero_lt_succ 15)
  · exact fun i hi => if_neg (Nat.ne_of_gt hi)

/-! ### `MOTION_DECODE` -/

/-- The float of the sample in `D[2k]`, `D[2k+1]` (R73). -/
def sampleFloat (d : Vector Byte Config.nmax) (k : Fin 8) : Word :=
  i16ToF32 (le16 (dataAt d (2 * k.val)) (dataAt d (2 * k.val + 1)))

theorem floats_append (l more : List HostResult) : floats (l ++ more) = floats l ++ floats more := by
  induction l with
  | nil => rfl
  | cons r l ih => cases r <;> simp [floats, ih]

/-- In `IDLE` a sample conversion gives the host the float of its two bytes and leaves the block as it is (R73). -/
theorem step_convertSample {k : Fin 8} {s : State} {rest : List Input} (hp : s.phase = .idle)
    (hq : s.inputs = .host (.convertSample k) :: rest) :
    ∃ log, step s = .next { s with inputs := rest, hostLog := log } ∧
      floats log = floats s.hostLog ++ [sampleFloat s.d k] := by
  refine ⟨(convertSample k (setInputs rest s)).hostLog, ?_, ?_⟩
  · rw [step_host hq, hostStep]
    simp [convertSample, convert, readData, hostReceives, setInputs, hp]
  · simp [convertSample, readData, dataValue, hp, floats_append, floats, sampleFloat]

/-- Several sample conversions in `IDLE`, one step each: the host takes their floats in order (R73). -/
theorem run_convertSamples (ks : List (Fin 8)) {s : State} {rest : List Input} (hp : s.phase = .idle)
    (hq : s.inputs = (ks.map HostOp.convertSample).map .host ++ rest) :
    ∃ t, Host.Core.run core ks.length s = .next t ∧ t = { s with inputs := rest, hostLog := t.hostLog } ∧
      floats t.hostLog = floats s.hostLog ++ ks.map (sampleFloat s.d) := by
  induction ks generalizing s with
  | nil => exact ⟨s, rfl, (setInputs_same hq).symm, by simp⟩
  | cons k ks ih =>
    obtain ⟨log, hstep, hlog⟩ := step_convertSample hp hq
    obtain ⟨t, hrun, ht, hfloats⟩ := ih (s := { s with inputs := _, hostLog := log }) hp rfl
    exact ⟨t, (run_succ ks.length hstep).trans hrun, ht, by simp [hfloats, hlog]⟩

/-- The guard does not look at what is to come. -/
theorem motionReady_setInputs (q : List Input) (s : State) : motionReady (setInputs q s) = motionReady s := rfl

/-- Settles O19: where the guard holds, the first step puts the six conversions before what is to come and six more steps
take them; where it does not, the first step takes the operation and nothing else. -/
theorem motionDecodeGivesSixFloats : Obligations.MotionDecodeGivesSixFloats := by
  intro s rest hq
  have hstep : step s = .next (decodeMotion (setInputs rest s)) := step_host hq
  constructor
  · intro hp hok hlast
    have hready : motionReady s = true := by simp [motionReady, hok, hlast, Config.imuMotionData]
    have hfirst : step s = .next (hostContinues motionConversions (setInputs rest s)) := by
      rw [hstep, decodeMotion, motionReady_setInputs, if_pos hready]
    obtain ⟨t, hrun, ht, hfloats⟩ :=
      run_convertSamples [0, 1, 2, 3, 4, 5] (s := hostContinues motionConversions (setInputs rest s)) hp rfl
    exact ⟨t, (run_succ 6 hfirst).trans hrun, ht, hfloats, if_pos hready⟩
  · intro hno
    have hready : motionReady s = false := by
      obtain h | h := hno <;> simp [motionReady, h, Config.imuMotionData]
    rw [hstep, decodeMotion, motionReady_setInputs, motionResult, hready]
    exact ⟨rfl, rfl⟩

/-! ### `WAIT` -/

/-- Before the first command after a reset the block stays idle with `DONE` = 0, whatever environment and platform do: no
call is pending that an answer could end (R200, R203). -/
theorem takeEnvironment_noCommand (e : EnvEvent) {s : State} (hp : s.phase = .idle) (hd : s.done = false) :
    (takeEnvironment e s).phase = .idle ∧ (takeEnvironment e s).done = false := by
  cases e with
  | answer a => rw [takeEnvironment, framerStep_idle a hp]; exact ⟨hp, hd⟩
  | lateAnswer a =>
    obtain ⟨-, h⟩ | ⟨-, h⟩ := discardAnswer_cases a s
    · rw [takeEnvironment, h]; exact ⟨hp, hd⟩
    · rw [takeEnvironment, h]; exact ⟨hp, hd⟩
  | reset => exact ⟨rfl, rfl⟩
  | restoreLine =>
    obtain ⟨-, -, h⟩ | ⟨-, h⟩ := restoreLine_cases s
    · rw [takeEnvironment, h]; exact ⟨hp, hd⟩
    · rw [takeEnvironment, h]; exact ⟨hp, hd⟩

/-- A turn of `WAIT` with no command written since reset leads to the next turn (R71, R203). -/
theorem step_wait_noCommand {s : State} {rest : List Input} (hp : s.phase = .idle) (hd : s.done = false)
    (hq : s.inputs = .host .wait :: rest) :
    ∃ t left, step s = .next t ∧ t.phase = .idle ∧ t.done = false ∧ t.inputs = .host .wait :: left := by
  have hstep : step s = .next (waitTurn (setInputs rest s)) := step_host hq
  obtain ⟨hd', -⟩ | ⟨-, -, h⟩ | ⟨-, e, more, -, h⟩ := waitTurn_cases (setInputs rest s)
  · exact absurd (hd.symm.trans hd') Bool.false_ne_true
  · exact ⟨_, rest, hstep.trans (congrArg _ h), hp, hd, rfl⟩
  · obtain ⟨hp', hd'⟩ := takeEnvironment_noCommand e (s := setInputs more (readStatus (setInputs rest s))) hp hd
    exact ⟨_, _, hstep.trans (congrArg _ h), hp', hd', rfl⟩

/-- Settles O48: each turn leads to a state of the same kind, so every number of them does. -/
theorem waitWithoutCommandNeverEnds : Obligations.WaitWithoutCommandNeverEnds := by
  refine ⟨fun s rest hp hd hq => step_wait_noCommand hp hd hq, fun k => ?_⟩
  induction k with
  | zero => exact fun s rest hp hd hq => ⟨s, rest, rfl, hp, hd, hq⟩
  | succ k ih =>
    intro s rest hp hd hq
    obtain ⟨u, left, hstep, hp', hd', hq'⟩ := step_wait_noCommand hp hd hq
    rw [run_succ k hstep]
    exact ih u left hp' hd' hq'

/-! ### A command followed by `WAIT` -/

/-- The environment's answers, as they stand in the inputs. -/
def answerInputs (answers : List Answer) : List Input := answers.map fun a => .env (.answer a)

/-- A command is in progress. -/
def running (s : State) : Prop := positioned s ∧ s.phase ≠ .idle ∧ s.done = false

/-- A command has ended (R95). -/
def ended (s : State) : Prop := s.phase = .idle ∧ s.done = true

theorem running_acceptCommand {op : Op} {addr : BitVec 7} {n : BitVec 5} (hl : legalFields op addr n = true)
    (s : State) : running (acceptCommand op addr n s) :=
  ⟨⟨positionInvariant_of_zero rfl, fun _ => hl⟩, by simp, rfl⟩

/-- An accepted command has all its calls to make: the bytes of the frame between the two `CsSet` (R91). -/
theorem callsLeft_acceptCommand (op : Op) (addr : BitVec 7) (n : BitVec 5) (s : State) :
    callsLeft (acceptCommand op addr n s) = frameLength op n + 2 := rfl

theorem running.busy {s : State} (h : running s) : s.phase ≠ .idle := h.2.1

theorem running.done {s : State} (h : running s) : s.done = false := h.2.2

/-- A command in progress has a call to make (R91). -/
theorem running.callsLeft_pos {s : State} (h : running s) : 0 < callsLeft s := by
  cases hp : s.phase with
  | idle => exact absurd hp h.busy
  | assert => simp [callsLeft, hp]
  | xfer => simp [callsLeft, hp]
  | release => simp [callsLeft, hp]

theorem storeReceived_done (rx : Byte) (s : State) : (storeReceived rx s).done = s.done := by
  rw [storeReceived_eq]

/-- `DONE` is set by the step that ends the command, and by no other (R95). -/
theorem ended_or_busy_framerStep (a : Answer) {s : State} (hb : s.phase ≠ .idle) :
    ended (framerStep a s) ∨ ((framerStep a s).phase ≠ .idle ∧ (framerStep a s).done = s.done) := by
  obtain ⟨rx, -, -, e⟩ | ⟨-, -, e⟩ | ⟨rx, -, -, e⟩ | ⟨-, -, e⟩ | ⟨rx, -, -, e⟩ | ⟨-, -, e⟩ := framerStep_cases a hb
  · exact .inr (by simp [e])
  · exact .inr (by simp [e])
  · obtain ⟨-, e'⟩ | ⟨-, e'⟩ := advance_cases (storeReceived rx (xchg (nextByte s) a s)) <;>
      exact .inr (by simp [e, e', storeReceived_done])
  · exact .inr (by simp [e])
  · exact .inl (by simp [ended, e])
  · exact .inl (by simp [ended, e])

/-- An answer ends a command in progress or leaves it in progress with fewer calls to make (R91). -/
theorem running.framerStep {s : State} (h : running s) (a : Answer) :
    ended (framerStep a s) ∨ (running (framerStep a s) ∧ callsLeft (framerStep a s) < callsLeft s) := by
  obtain ⟨hpos, hb, hd⟩ := h
  refine (ended_or_busy_framerStep a hb).imp_right fun ⟨hb', hd'⟩ => ?_
  exact ⟨⟨positioned_framerStep a hpos hb, hb', hd'.trans hd⟩, callsLeft_framerStep a hpos hb⟩

/-- The uninterrupted run over some answers, up to a host operation: the command ends and leaves the answers it did not
need, or it has taken all of them and made as many of its calls. -/
theorem runAnswers_ends_or_runs (answers : List Answer) (op : HostOp) (q : List Input) {s : State} (h : running s) :
    ∃ t, runAnswers (answerInputs answers ++ .host op :: q) s = t ∧ t.hostLog = s.hostLog ∧
      ((ended t ∧ ∃ left, left.length ≤ answers.length ∧ t.inputs = answerInputs left ++ .host op :: q) ∨
       (running t ∧ callsLeft t + answers.length ≤ callsLeft s ∧ t.inputs = .host op :: q)) := by
  induction answers generalizing s with
  | nil => exact ⟨_, rfl, rfl, .inr ⟨h, le_rfl, rfl⟩⟩
  | cons a answers ih =>
    have hrun : runAnswers (answerInputs (a :: answers) ++ .host op :: q) s =
        runAnswers (answerInputs answers ++ .host op :: q) (framerStep a s) :=
      runAnswers_answer a _ h.busy
    rw [hrun]
    obtain hend | ⟨hgo, hless⟩ := h.framerStep a
    · rw [runAnswers_idle _ hend.1]
      exact ⟨_, rfl, framerStep_hostLog a s, .inl ⟨hend, answers, by simp, rfl⟩⟩
    · obtain ⟨t, ht, hlog, hcases⟩ := ih hgo
      refine ⟨t, ht, hlog.trans (framerStep_hostLog a s), hcases.imp ?_ ?_⟩
      · rintro ⟨hend, left, hleft, hq⟩
        exact ⟨hend, left, hleft.trans (by simp), hq⟩
      · rintro ⟨hgo', hcalls, hq⟩
        exact ⟨hgo', by rw [List.length_cons]; omega, hq⟩

/-- A value of `STATUS` with `DONE` = 0, as `WAIT` reads it before its last turn (R71). -/
def unfinishedRead (r : HostResult) : Prop := ∃ v : Half, r = .value 0x01#8 v ∧ v.getLsbD 1 = false

/-- Within the given number of steps from `s` a `WAIT` ends with the command done: the host has read `STATUS` with `DONE` = 0
some number of times and then as it is, and of the inputs before `rest` only unneeded answers are left. -/
def waitEndsWithin (bound : Nat) (s : State) (rest : List Input) : Prop :=
  ∃ (k : Nat) (t : State) (left : List Answer) (reads : List HostResult), k ≤ bound ∧
    Host.Core.run core k s = .next t ∧ t.phase = .idle ∧ t.done = true ∧ t.inputs = answerInputs left ++ rest ∧
    t.hostLog = s.hostLog ++ (reads ++ [.value 0x01#8 ((statusByte t).setWidth 16)]) ∧ ∀ r ∈ reads, unfinishedRead r

theorem waitEndsWithin.mono {m n : Nat} {s : State} {rest : List Input} (h : waitEndsWithin m s rest) (hmn : m ≤ n) :
    waitEndsWithin n s rest := by
  obtain ⟨k, t, left, reads, hk, h⟩ := h
  exact ⟨k, t, left, reads, hk.trans hmn, h⟩

/-- A step before, in which the host reads at most values with `DONE` = 0. -/
theorem waitEndsWithin.of_step {n : Nat} {s u : State} {rest : List Input} {polls : List HostResult}
    (h : waitEndsWithin n u rest) (hs : step s = .next u) (hlog : u.hostLog = s.hostLog ++ polls)
    (hpolls : ∀ r ∈ polls, unfinishedRead r) : waitEndsWithin (n + 1) s rest := by
  obtain ⟨k, t, left, reads, hk, hrun, hp, hd, hq, hl, hreads⟩ := h
  refine ⟨k + 1, t, left, polls ++ reads, by omega, (run_succ k hs).trans hrun, hp, hd, hq, ?_, ?_⟩
  · rw [hl, hlog, List.append_assoc, List.append_assoc]
  · exact fun r hr => (List.mem_append.mp hr).elim (hpolls r) (hreads r)

/-- The last turn of `WAIT` (R71). -/
theorem waitEndsWithin_of_ended {s : State} (after : List Answer) {rest : List Input} (h : ended s)
    (hq : s.inputs = .host .wait :: (answerInputs after ++ rest)) : waitEndsWithin 1 s rest := by
  obtain ⟨hp, hd⟩ := h
  have hstep : step s = .next (readStatus (setInputs (answerInputs after ++ rest) s)) := by
    rw [step_host hq, hostStep, waitTurn, setInputs_done, if_pos hd]
  exact ⟨1, _, after, [], le_rfl, run_succ 0 hstep, hp, hd, rfl, rfl, by simp⟩

/-- The block discards the answers that stand before the `WAIT` and that the ended command did not need (log entry 1). -/
theorem waitEndsWithin_of_ended_early (left : List Answer) {s : State} (after : List Answer) {rest : List Input}
    (h : ended s) (hq : s.inputs = answerInputs left ++ .host .wait :: (answerInputs after ++ rest)) :
    waitEndsWithin (left.length + 1) s rest := by
  induction left generalizing s with
  | nil => exact waitEndsWithin_of_ended after h hq
  | cons a left ih =>
    set q := answerInputs left ++ .host .wait :: (answerInputs after ++ rest)
    have hend : ended (setInputs q s) := h
    have hstep : step s = .next (setInputs q s) :=
      (step_env hq).trans (congrArg _ (framerStep_idle a hend.1))
    exact (ih hend rfl).of_step (polls := []) hstep (List.append_nil _).symm (by simp)

/-- A turn of `WAIT` before `DONE`, with an answer next: the host reads `STATUS`, then the framer takes its step (R71). -/
theorem step_wait_answer {s : State} {a : Answer} {q : List Input} (hd : s.done = false)
    (hq : s.inputs = .host .wait :: .env (.answer a) :: q) :
    step s = .next (framerStep a (setInputs (.host .wait :: q) (readStatus s))) := by
  rw [step_host hq, hostStep]
  obtain ⟨hd', -⟩ | ⟨-, hne, -⟩ | ⟨-, e, more, hcons, hturn⟩ := waitTurn_cases (setInputs (.env (.answer a) :: q) s)
  · exact absurd (hd.symm.trans hd') Bool.false_ne_true
  · exact absurd rfl (hne (.answer a) q)
  · cases hcons
    rw [hturn, takeEnvironment, hostContinues, framerStep_inputs, ← framerStep_withInputs]
    rfl

/-- The value a turn of `WAIT` reads has `DONE` at bit 1 (R23). -/
theorem unfinishedRead_status {s : State} (hd : s.done = false) :
    unfinishedRead (.value 0x01#8 ((statusByte s).setWidth 16)) := by
  obtain ⟨-, hdone, -⟩ := statusBitPlaces s
  exact ⟨_, rfl, by rw [BitVec.getLsbD_setWidth, hdone, hd]; rfl⟩

/-- The loop over answers enough for the calls that are left: each turn takes one, and the turn after the last call ends
it (R71). -/
theorem waitEndsWithin_of_running (after : List Answer) {s : State} {rest : List Input} (h : running s)
    (hcalls : callsLeft s ≤ after.length) (hq : s.inputs = .host .wait :: (answerInputs after ++ rest)) :
    waitEndsWithin (after.length + 1) s rest := by
  induction after generalizing s with
  | nil => exact absurd hcalls (Nat.not_le_of_gt h.callsLeft_pos)
  | cons a after ih =>
    set u := setInputs (.host .wait :: (answerInputs after ++ rest)) (readStatus s)
    have hu : running u := h
    have hstep : step s = .next (framerStep a u) := step_wait_answer h.done hq
    have hnext : (framerStep a u).inputs = .host .wait :: (answerInputs after ++ rest) := framerStep_inputs a u
    have hlog : (framerStep a u).hostLog = s.hostLog ++ [.value 0x01#8 ((statusByte s).setWidth 16)] :=
      framerStep_hostLog a u
    have hends : waitEndsWithin (after.length + 1) (framerStep a u) rest := by
      obtain hend | ⟨hgo, hless⟩ := hu.framerStep a
      · exact (waitEndsWithin_of_ended after hend hnext).mono (by omega)
      · exact ih hgo (Nat.le_of_lt_succ (Nat.lt_of_lt_of_le hless hcalls)) hnext
    exact hends.of_step hstep hlog (by simpa using unfinishedRead_status h.done)

/-- The step that issues a legal command to an idle block: the framer begins it and runs over the answers that come next
(R90, R91). -/
theorem step_issue {s : State} {op : Op} {addr : BitVec 7} {n : BitVec 5} {q : List Input} (hp : s.phase = .idle)
    (hl : legalFields op addr n = true) (hq : s.inputs = .host (issue (Instr.command op addr n)) :: q) :
    step s = .next (runAnswers q (acceptCommand op addr n (setInputs q s))) := by
  have hdecode := decodeOfEncode (Instr.command op addr n) (by rwa [wellFormed_command])
  rw [step_host hq, issue, hostStep_present hdecode, exec_command, runCommand_legal (s := setInputs q s) hp hl,
    setInputs_inputs]

/-- Settles O47: if the answers before the `WAIT` end the command, the block discards those it did not need and the first
read shows `DONE`; otherwise the answers after it are enough for the calls that are left. -/
theorem waitEndsWhenCallsAreAnswered : Obligations.WaitEndsWhenCallsAreAnswered := by
  intro s op addr n before after rest hp hl hlen hq
  obtain ⟨u, hu, hlog, hcases⟩ := runAnswers_ends_or_runs before .wait (answerInputs after ++ rest)
    (running_acceptCommand hl (setInputs (answerInputs before ++ .host .wait :: (answerInputs after ++ rest)) s))
  have hstep : step s = .next u := hu ▸ step_issue hp hl hq
  have hwait : waitEndsWithin (frameLength op n + 3) u rest := by
    obtain ⟨hend, left, hleft, hq'⟩ | ⟨hgo, hcalls, hq'⟩ := hcases
    · exact (waitEndsWithin_of_ended_early left after hend hq').mono (by omega)
    · rw [callsLeft_acceptCommand] at hcalls
      exact (waitEndsWithin_of_running after hgo (by omega) hq').mono (by omega)
  exact hwait.of_step (polls := []) hstep (by simpa using hlog) (by simp)

end Sys2Proof.Proofs.Encoding
end

section
/-! PROOF. 40_framer_commands.md: what a `CMD` write and each sequencer step do (O28, O30 to O34), whole transactions (O37
to O44, O53), that reads do not send `D` (O46), and the line in the bracket (O51). -/

namespace Sys2Proof.Proofs.FramerCommands

open Sys2Proof.Machine Sys2Proof.Proofs.Scope Sys2Proof.Proofs.ControlState Sys2Proof.Proofs.Memory
  Sys2Proof.Proofs.Encoding

/-! ### `STATUS` where one flag changes -/

/-- Setting `CS_ERR` sets bit 3 of `STATUS` (R23). -/
theorem statusByte_setCsErr {s t : State} (hb : busy t = busy s) (hd : t.done = s.done) (hx : t.xferErr = s.xferErr)
    (hc : t.csErr = true) (hm : t.cmdErr = s.cmdErr) : statusByte t = statusByte s ||| 0x08#8 := by
  simp only [statusByte, hb, hd, hx, hc, hm]
  generalize busy s = b, s.done = d, s.xferErr = x, s.csErr = c, s.cmdErr = m
  revert b d x c m
  decide

/-- Setting `XFER_ERR` sets bit 2 of `STATUS` (R23). -/
theorem statusByte_setXferErr {s t : State} (hb : busy t = busy s) (hd : t.done = s.done) (hx : t.xferErr = true)
    (hc : t.csErr = s.csErr) (hm : t.cmdErr = s.cmdErr) : statusByte t = statusByte s ||| 0x04#8 := by
  simp only [statusByte, hb, hd, hx, hc, hm]
  generalize busy s = b, s.done = d, s.xferErr = x, s.csErr = c, s.cmdErr = m
  revert b d x c m
  decide

/-- `STATUS` after the `RELEASE` step whose call `a` answered, from `STATUS` before it: `BUSY` cleared, `DONE` set, and on
an `err` `CS_ERR` set (R95). -/
def releasedStatus (before : Byte) (a : Answer) : Byte := before &&& 0xFE#8 ||| (if a.isOk then 0x02#8 else 0x0A#8)

theorem statusByte_released {s t : State} {a : Answer} (hb : busy t = false) (hd : t.done = true)
    (hx : t.xferErr = s.xferErr) (hc : t.csErr = (s.csErr || !a.isOk)) (hm : t.cmdErr = s.cmdErr) :
    statusByte t = releasedStatus (statusByte s) a := by
  simp only [statusByte, releasedStatus, hb, hd, hx, hc, hm]
  generalize busy s = b, s.done = d, s.xferErr = x, s.csErr = c, s.cmdErr = m, a.isOk = r
  revert b d x c m r
  decide

/-- The `RELEASE` step always changes `STATUS`: `BUSY` falls (R17, R95). -/
theorem statusChange_released {s : State} (a : Answer) (hb : s.phase ≠ .idle) :
    statusChange (statusByte s) (releasedStatus (statusByte s) a) = [.status (releasedStatus (statusByte s) a)] := by
  refine if_neg fun h => ?_
  have hbit : (releasedStatus (statusByte s) a).getLsbD 0 = false := by
    unfold releasedStatus
    split <;> simp
  rw [h, statusByte_busy hb] at hbit
  exact absurd hbit (by decide)

/-! ### The sequencer steps, field by field -/

theorem statusByte_failedAssert {s : State} (hp : s.phase = .assert) :
    statusByte (framerStep .err s) = statusByte s ||| 0x08#8 := by
  rw [framerStep_assert_err hp, statusByte_recordStatus]
  exact statusByte_setCsErr (by simp [busy, hp]) rfl rfl rfl rfl

/-- R92 where `CsSet(low)` fails. -/
theorem framerStep_failedAssert {s : State} (hp : s.phase = .assert) :
    framerStep .err s = { s with
      phase := .release, idx := 0#5, csErr := true, csLine := .unknown,
      trace := s.trace ++ .csSet .low false :: statusChange (statusByte s) (statusByte s ||| 0x08#8) } := by
  rw [← statusByte_failedAssert hp, framerStep_assert_err hp, statusByte_recordStatus, recordStatus]
  simp [setPosition, csSet, lineAfter, Answer.isOk]

theorem statusByte_failedExchange {s : State} (hp : s.phase = .xfer) :
    statusByte (framerStep .err s) = statusByte s ||| 0x04#8 := by
  rw [framerStep_xfer_err hp, statusByte_recordStatus]
  exact statusByte_setXferErr (by simp [busy, hp]) rfl rfl rfl rfl

/-- R94: a failed exchange. -/
theorem framerStep_failedExchange {s : State} (hp : s.phase = .xfer) :
    framerStep .err s = { s with
      d := scrambleData s.d s.cN.toNat s.draws, draws := s.draws + s.cN.toNat, phase := .release, idx := 0#5,
      xferErr := true,
      trace := s.trace ++ .xchg (nextByte s) .err :: statusChange (statusByte s) (statusByte s ||| 0x04#8) } := by
  rw [← statusByte_failedExchange hp, framerStep_xfer_err hp, statusByte_recordStatus, recordStatus]
  simp [setPosition, loseData, xchg]

/-- The `RELEASE` step, both answers in one: an `err` sets `CS_ERR`, and nothing clears it (R95). -/
theorem framerStep_release_answer {s : State} (a : Answer) (hp : s.phase = .release) :
    framerStep a s = recordStatus (statusByte s)
      (setPosition .idle 0#5 { csSet .high a s with csErr := s.csErr || !a.isOk, done := true }) := by
  cases a with
  | ok rx => rw [framerStep_release_ok rx hp]; simp [Answer.isOk, csSet]
  | err => rw [framerStep_release_err hp]; simp [Answer.isOk]

theorem statusByte_release {s : State} (a : Answer) (hp : s.phase = .release) :
    statusByte (framerStep a s) = releasedStatus (statusByte s) a := by
  rw [framerStep_release_answer a hp, statusByte_recordStatus]
  exact statusByte_released rfl rfl rfl rfl rfl

/-- `CsSet(high)` leaves the line high or unknown (R32). -/
theorem lineAfter_high (a : Answer) : lineAfter .high a = if a.isOk then .high else .unknown := by
  cases a <;> rfl

/-- R95: the `RELEASE` step, whatever `CsSet(high)` answers. -/
theorem framerStep_release {s : State} (a : Answer) (hp : s.phase = .release) :
    framerStep a s = { s with
      phase := .idle, idx := 0#5, done := true, csErr := s.csErr || !a.isOk,
      csLine := if a.isOk then .high else .unknown,
      trace := s.trace ++ [.csSet .high a.isOk, .status (releasedStatus (statusByte s) a)] } := by
  rw [← statusChange_released a (by simp [hp]), ← statusByte_release a hp, framerStep_release_answer a hp,
    statusByte_recordStatus, recordStatus]
  simp [setPosition, csSet, lineAfter_high]

/-- The step that takes an answer is the framer's step on what is then to come. -/
theorem step_answer {s : State} {a : Answer} {rest : List Input} (hq : s.inputs = .env (.answer a) :: rest) :
    step s = .next (setInputs rest (framerStep a s)) := by
  rw [step_env hq, takeEnvironment, framerStep_withInputs]

/-- Settles O31: by the two cases of the answer. -/
theorem assertStepRule : Obligations.AssertStepRule := by
  intro s rest hp
  refine ⟨fun rx hq => ?_, fun hq => ?_⟩
  · rw [step_answer hq, framerStep_assert_ok rx hp]
    rfl
  · rw [step_answer hq, framerStep_failedAssert hp]
    rfl

/-- Settles O32: `framerStep_exchange` gives every field; the store changes the register at `idx - hdr` alone. -/
theorem exchangeStepRule : Obligations.ExchangeStepRule := by
  intro s rx rest hp hl hi hq
  obtain ⟨t, hstep, ht, hnext, hlast⟩ := framerStep_exchange rx hp hl
  have hd : t.d = if headerLength s.cOp ≤ s.idx.toNat then setData s.d (s.idx.toNat - headerLength s.cOp) rx
      else s.d := by rw [ht]
  refine ⟨setInputs rest t, (step_answer hq).trans (by rw [hstep]), ?_, by rw [ht]; rfl, fun h => ?_, fun j h => ?_,
    hnext, fun h => hlast (by omega)⟩
  · rw [ht]; rfl
  · have hL := frameLength_eq hl
    obtain ⟨-, hmax⟩ := legalFields_count hl
    rw [setInputs_d, hd, if_pos h, dataAt_setData, if_pos ⟨rfl, by omega⟩]
  · have hkept : dataAt t.d j = dataAt s.d j := by
      rw [hd]
      split
      · exact dataAt_setData_ne _ _ (by omega)
      · rfl
    rwa [dataAt_of_lt _ j.isLt, dataAt_of_lt _ j.isLt] at hkept

/-- Settles O33: the bytes that are lost are `D[0..N-1]`. -/
theorem failedExchangeStepRule : Obligations.FailedExchangeStepRule := by
  intro s rest hp hq
  refine ⟨_, step_answer hq, ?_, fun j hj => ?_⟩
  · rw [framerStep_failedExchange hp]
    rfl
  · rw [framerStep_failedExchange hp]
    simp [scrambleData, Nat.not_lt.mpr hj]

/-- Settles O34: `framerStep_release` at the two answers. -/
theorem releaseStepRule : Obligations.ReleaseStepRule := by
  intro s rest hp
  refine ⟨fun rx hq => ?_, fun hq => ?_⟩
  · rw [step_answer hq, framerStep_release _ hp]
    simp [setInputs, releasedStatus, Answer.isOk]
  · rw [step_answer hq, framerStep_release _ hp]
    simp [setInputs, releasedStatus, Answer.isOk]

/-! ### Accepting and rejecting a command -/

/-- A rejection while idle, field by field (R90, R183). -/
theorem rejectCommand_eq {s : State} (hp : s.phase = .idle) :
    rejectCommand s = { s with
      done := true, xferErr := false, csErr := false, cmdErr := true,
      trace := s.trace ++ statusChange (statusByte s) 0x12#8 } := by
  have hstatus : statusByte { clearFlags s with cmdErr := true, done := true } = 0x12#8 := by
    simp [statusByte, busy, hp]
  rw [rejectCommand_idle hp, recordStatus, hstatus]
  rfl

/-- The framer waits where no answer comes next (R10). -/
theorem runAnswers_waits {q : List Input} (h : ∀ a tail, q ≠ .env (.answer a) :: tail) (s : State) :
    runAnswers q s = setInputs q s := by
  match q with
  | [] => rfl
  | .host _ :: _ => rfl
  | .env (.answer a) :: tail => exact absurd rfl (h a tail)
  | .env (.lateAnswer _) :: _ => rfl
  | .env .reset :: _ => rfl
  | .env .restoreLine :: _ => rfl

/-- A legal command issued to an idle block is accepted, and the framer runs over the answers that come next (R90). -/
theorem exec_legal {s : State} {op : Op} {addr : BitVec 7} {n : BitVec 5} (hp : s.phase = .idle)
    (hl : legalFields op addr n = true) :
    exec (Instr.command op addr n) s = .next (runAnswers s.inputs (acceptCommand op addr n s)) := by
  rw [exec_command, runCommand_legal hp hl]

/-- The `CMD` write of a legal word issues the instruction it decodes to. -/
theorem writeCmd_legal {w : Half} {i : Instr} (h : decodeAt .cmd w = .ok i) (s : State) : writeCmd w s = exec i s := by
  rw [writeCmd, h]

/-- The `CMD` write of an illegal word is rejected (R183). -/
theorem writeCmd_illegal {w : Half} {e : Illegal} (h : decodeAt .cmd w = .error e) (s : State) :
    writeCmd w s = .next (rejectCommand s) := by
  rw [writeCmd, h]

/-- Settles O28: dropped by `writeCmd_busy`, rejected by `rejectCommand_eq`, accepted by `acceptCommand_eq`. -/
theorem commandWriteCases : Obligations.CommandWriteCases := by
  intro s w rest hq hnext
  have hstep : step s = writeCmd w (setInputs rest s) := by rw [step_host hq, hostStep_cmdWrite]
  refine ⟨fun hb => ?_, fun hp ⟨e, he⟩ => ?_, fun hp ⟨i, hi⟩ => ?_⟩
  · rw [hstep, writeCmd_busy w (s := setInputs rest s) hb]
    rfl
  · rw [hstep, writeCmd_illegal he, rejectCommand_eq (s := setInputs rest s) hp]
    rfl
  · obtain ⟨-, hl, rfl⟩ := (decodeCmd_ok_iff w i).mp hi
    rw [hstep, writeCmd_legal hi, exec_legal (s := setInputs rest s) hp hl, setInputs_inputs, runAnswers_waits hnext,
      acceptCommand_eq _ _ _ (s := setInputs rest s) hp]
    rfl

/-- Settles O30: the term is rejected as its word would be, or dropped. -/
theorem illFormedCommandIsRejected : Obligations.IllFormedCommandIsRejected := by
  intro op addr n s
  refine ⟨fun hp hill => ?_, fun hb => ?_⟩
  · rw [wellFormed_command] at hill
    rw [exec_command, runCommand_illegal hill, rejectCommand_eq hp]
  · rw [exec_command, runCommand_busy op addr n hb]

/-! ### Reads do not send `D` -/

/-- A read command sends its header constant and filler: no data register (R65). -/
theorem frameByte_read {op : Op} (h : op.isRead = true) (addr : BitVec 7) (d d' : Vector Byte Config.nmax) (i : Nat) :
    frameByte op addr d' i = frameByte op addr d i := by
  cases op with
  | imuWr => cases h
  | imuRd => rfl
  | tpWr => cases h
  | tpRd => rfl

/-- The states agree in everything but the contents of `D`. -/
def sameButData (s t : State) : Prop := t = { s with d := t.d }

theorem sameButData_iff (s t : State) : sameButData s t ↔ ∃ d, t = { s with d := d } := by
  constructor
  · exact fun h => ⟨t.d, h⟩
  · rintro ⟨d, rfl⟩
    rfl

/-- What the host and the environment see of two such states is the same. -/
theorem sameButData.seen {s t : State} (h : sameButData s t) :
    t.trace = s.trace ∧ statusByte t = statusByte s ∧ t.csLine = s.csLine ∧ t.inputs = s.inputs := by
  rw [h]
  exact ⟨rfl, rfl, rfl, rfl⟩

theorem sameButData.phase {s t : State} (h : sameButData s t) : t.phase = s.phase := by rw [h]

theorem sameButData.setInputs {s t : State} (h : sameButData s t) (q : List Input) :
    sameButData (setInputs q s) (setInputs q t) := by
  rw [h]
  rfl

theorem sameButData_storeReceived (rx : Byte) {s t : State} (h : sameButData s t) :
    sameButData (storeReceived rx s) (storeReceived rx t) := by
  rw [storeReceived_eq rx s, storeReceived_eq rx t, h]
  rfl

theorem sameButData_advance {s t : State} (h : sameButData s t) : sameButData (advance s) (advance t) := by
  obtain ⟨d, rfl⟩ := (sameButData_iff s t).mp h
  unfold advance
  split <;> rfl

/-- A framer step for a read does not look at `D`. -/
theorem sameButData_framerStep (a : Answer) {s t : State} (h : sameButData s t) (hr : s.cOp.isRead = true) :
    sameButData (framerStep a s) (framerStep a t) := by
  obtain ⟨d, rfl⟩ := (sameButData_iff s t).mp h
  have hbyte : nextByte { s with d := d } = nextByte s := frameByte_read hr s.cAddr s.d d s.idx.toNat
  by_cases hb : s.phase = .idle
  · rw [framerStep_idle a hb, framerStep_idle a (s := { s with d := d }) hb]
    exact h
  · obtain ⟨rx, rfl, hp, e⟩ | ⟨rfl, hp, e⟩ | ⟨rx, rfl, hp, e⟩ | ⟨rfl, hp, e⟩ | ⟨rx, rfl, hp, e⟩ | ⟨rfl, hp, e⟩ :=
      framerStep_cases a hb
    · rw [e, framerStep_assert_ok rx (s := { s with d := d }) hp]; rfl
    · rw [e, framerStep_assert_err (s := { s with d := d }) hp]; rfl
    · rw [e, framerStep_xfer_ok rx (s := { s with d := d }) hp, hbyte]
      exact sameButData_advance (sameButData_storeReceived rx rfl)
    · rw [e, framerStep_xfer_err (s := { s with d := d }) hp, hbyte]; rfl
    · rw [e, framerStep_release_ok rx (s := { s with d := d }) hp]; rfl
    · rw [e, framerStep_release_err (s := { s with d := d }) hp]; rfl

/-- Nor does the run over the answers that come next. -/
theorem sameButData_runAnswers (q : List Input) {s t : State} (h : sameButData s t) (hr : s.cOp.isRead = true) :
    sameButData (runAnswers q s) (runAnswers q t) := by
  induction q generalizing s t with
  | nil => exact h.setInputs []
  | cons x q ih =>
    cases x with
    | host op => exact h.setInputs _
    | env e =>
      cases e with
      | answer a =>
        by_cases hp : s.phase = .idle
        · rw [runAnswers_idle _ hp, runAnswers_idle _ (h.phase.trans hp)]
          exact h.setInputs _
        · rw [runAnswers_answer a q hp, runAnswers_answer a q (h.phase ▸ hp)]
          exact ih (sameButData_framerStep a h hr) (by rwa [framerStep_cOp])
      | lateAnswer a => exact h.setInputs _
      | reset => exact h.setInputs _
      | restoreLine => exact h.setInputs _

theorem sameButData_rejectCommand {s t : State} (h : sameButData s t) :
    sameButData (rejectCommand s) (rejectCommand t) := by
  obtain ⟨d, rfl⟩ := (sameButData_iff s t).mp h
  unfold rejectCommand
  split <;> rfl

/-- A read command, accepted, rejected or dropped, does not look at `D`. -/
theorem sameButData_runCommand {op : Op} (addr : BitVec 7) (n : BitVec 5) {s t : State} (h : sameButData s t)
    (hr : op.isRead = true) : sameButData (runCommand op addr n s) (runCommand op addr n t) := by
  obtain ⟨d, rfl⟩ := (sameButData_iff s t).mp h
  by_cases hp : s.phase = .idle
  · cases hl : legalFields op addr n with
    | true =>
      rw [runCommand_legal hp hl, runCommand_legal (s := { s with d := d }) hp hl]
      exact sameButData_runAnswers s.inputs rfl hr
    | false =>
      rw [runCommand_illegal hl, runCommand_illegal hl]
      exact sameButData_rejectCommand h
  · rw [runCommand_busy op addr n hp, runCommand_busy op addr n (s := { s with d := d }) hp]
    exact h

/-- Settles O46: the two runs end in states that differ in `D` alone. -/
theorem readsDoNotSendData : Obligations.ReadsDoNotSendData := by
  intro s d' op addr n hr
  exact ⟨_, _, exec_command op addr n s, exec_command op addr n _,
    (sameButData_runCommand addr n (t := { s with d := d' }) rfl hr).seen⟩

/-! ### The events of a framer step -/

/-- The event of the pending call, answered by `a` (R91, R7). -/
def answeredCall (a : Answer) (s : State) : List TraceEvent :=
  match s.phase with
  | .idle => []
  | .assert => [.csSet .low a.isOk]
  | .xfer => [.xchg (nextByte s) a]
  | .release => [.csSet .high a.isOk]

/-- A framer step records its call and then the change of `STATUS`, and nothing else (R7). -/
theorem framerStep_trace (a : Answer) (s : State) : (framerStep a s).trace =
    s.trace ++ (answeredCall a s ++ statusChange (statusByte s) (statusByte (framerStep a s))) := by
  cases hp : s.phase with
  | idle => simp [framerStep, answeredCall, hp, statusChange]
  | assert => simp [framerStep, answeredCall, hp, assertStep_trace]
  | xfer => simp [framerStep, answeredCall, hp, xferStep_trace]
  | release => simp [framerStep, answeredCall, hp, releaseStep_trace]

/-- A busy framer's step makes one call (R91). -/
theorem answeredCall_isCall (a : Answer) {s : State} (hb : s.phase ≠ .idle) :
    ((answeredCall a s).filter isCall).length = 1 := by
  unfold answeredCall
  split
  · exact absurd ‹_› hb
  · rfl
  · rfl
  · rfl

/-- A change of `STATUS` is no call. -/
@[simp] theorem filter_isCall_statusChange (before after : Byte) : (statusChange before after).filter isCall = [] := by
  unfold statusChange
  split <;> rfl

/-! ### The line in the bracket -/

/-- A framer step whose call is no failed `CsSet` keeps the line where R96 has it. -/
theorem lineFollowsPhase_framerStep (a : Answer) {s : State} (hb : s.phase ≠ .idle) (h : lineFollowsPhase s)
    (hsound : ∀ e ∈ answeredCall a s, soundEvent e = true) : lineFollowsPhase (framerStep a s) := by
  obtain ⟨-, hlow⟩ := h
  obtain ⟨rx, rfl, hp, e⟩ | ⟨rfl, hp, -⟩ | ⟨rx, rfl, hp, e⟩ | ⟨rfl, hp, e⟩ | ⟨rx, rfl, hp, e⟩ | ⟨rfl, hp, -⟩ :=
    framerStep_cases a hb
  · simp [lineFollowsPhase, e, lineAfter]
  · simp [answeredCall, hp, soundEvent, Answer.isOk] at hsound
  · have hline : (storeReceived rx (xchg (nextByte s) (.ok rx) s)).csLine = .low := by
      rw [storeReceived_eq]
      exact hlow (.inl hp)
    obtain ⟨-, e'⟩ | ⟨-, e'⟩ := advance_cases (storeReceived rx (xchg (nextByte s) (.ok rx) s)) <;>
      simp [lineFollowsPhase, e, e', hline]
  · simp [lineFollowsPhase, e, hlow (.inl hp)]
  · simp [lineFollowsPhase, e, lineAfter]
  · simp [answeredCall, hp, soundEvent, Answer.isOk] at hsound

/-- Since the events `seen`, either the line is where R96 has it or a failed `CsSet` or a `Reset` has come. -/
def lineFollowsSince (seen : List TraceEvent) (s : State) : Prop :=
  ∃ events, s.trace = seen ++ events ∧ ((∀ e ∈ events, soundEvent e = true) → lineFollowsPhase s)

/-- An action after that: it need keep the line only where its own events are sound. -/
theorem lineFollowsSince.of_action {seen more : List TraceEvent} {s t : State} (h : lineFollowsSince seen s)
    (ht : t.trace = s.trace ++ more)
    (hline : lineFollowsPhase s → (∀ e ∈ more, soundEvent e = true) → lineFollowsPhase t) : lineFollowsSince seen t := by
  obtain ⟨events, hs, hfollows⟩ := h
  refine ⟨events ++ more, by rw [ht, hs, List.append_assoc], fun hsound => ?_⟩
  exact hline (hfollows fun e he => hsound e (List.mem_append_left more he))
    fun e he => hsound e (List.mem_append_right events he)

/-- What touches neither the position nor the line keeps the line where R96 has it. -/
theorem lineFollowsPhase_congr {s t : State} (hp : t.phase = s.phase) (hl : t.csLine = s.csLine)
    (h : lineFollowsPhase s) : lineFollowsPhase t := by
  unfold lineFollowsPhase at h ⊢
  rwa [hp, hl]

/-- With the line high in `IDLE`, R96 is met. -/
theorem lineFollowsPhase_of_idle {s : State} (hp : s.phase = .idle) (hl : s.csLine = .high) : lineFollowsPhase s :=
  ⟨fun _ => hl, by simp [hp]⟩

/-- Settles O51: each action of the machine keeps the line where R96 has it, or adds an event the premise shuts out. -/
theorem lineIsLowExactlyInTheBracket : Obligations.LineIsLowExactlyInTheBracket := by
  refine ⟨fun s hp hl => lineFollowsPhase_of_idle hp hl, fun s t events h hs ht hsound => ?_⟩
  have hsince : lineFollowsSince s.trace t := step_keeps (P := lineFollowsSince s.trace)
    (inert := fun _ _ _ _ _ _ h => h)
    (framer := fun a u hb h => h.of_action (framerStep_trace a u) fun hline hmore =>
      lineFollowsPhase_framerStep a hb hline fun e he => hmore e (List.mem_append_left _ he))
    (accept := fun op addr n u hp _ h => h.of_action (by rw [acceptCommand_eq op addr n hp]) fun hline _ =>
      ⟨fun _ => hline.1 (.inl hp), by simp⟩)
    (reject := fun u hp h => h.of_action (by rw [rejectCommand_eq hp]) fun hline _ =>
      lineFollowsPhase_congr (by rw [rejectCommand_eq hp]) (by rw [rejectCommand_eq hp]) hline)
    (reset := fun u h => h.of_action (more := .reset (pendingCall u) :: statusChange (statusByte u) 0x00#8) (by simp)
      fun _ hmore => absurd (hmore _ List.mem_cons_self) Bool.false_ne_true)
    (late := fun a u h => by
      obtain ⟨-, e⟩ | ⟨-, e⟩ := discardAnswer_cases a u
      · rw [e]
        exact h.of_action rfl fun hline _ => hline
      · rwa [e])
    (restore := fun u hp _ h => h.of_action (more := []) (List.append_nil _).symm fun _ _ =>
      lineFollowsPhase_of_idle hp rfl)
    ⟨[], (List.append_nil _).symm, fun _ => h⟩ hs
  obtain ⟨added, hadded, hfollows⟩ := hsince
  obtain rfl : events = added := List.append_cancel_left (ht.symm.trans hadded)
  exact hfollows hsound

/-! ### At most `L + 2` calls -/

/-- The calls made from `s` to `t` and those left in `t` are together at most those left in `s` (R91). -/
def callsWithin (s t : State) : Prop :=
  ∃ events, t.trace = s.trace ++ events ∧ (events.filter isCall).length + callsLeft t ≤ callsLeft s

/-- A host operation on a busy block makes no call. -/
theorem callsWithin_of_sameBlock {s t : State} (h : sameBlock s t) : callsWithin s t := by
  unfold sameBlock at h
  rw [h]
  exact ⟨[], (List.append_nil _).symm, (Nat.zero_add _).le⟩

/-- A busy framer has a call to make (R91). -/
theorem callsLeft_pos_of_busy {s : State} (hb : s.phase ≠ .idle) : 0 < callsLeft s := by
  unfold callsLeft
  split
  · exact absurd ‹_› hb
  · omega
  · omega
  · omega

theorem callsWithin_framerStep (a : Answer) {s : State} (h : positioned s) (hb : s.phase ≠ .idle) :
    callsWithin s (framerStep a s) := by
  refine ⟨_, framerStep_trace a s, ?_⟩
  have hless := callsLeft_framerStep a h hb
  simp only [List.filter_append, filter_isCall_statusChange, List.append_nil, answeredCall_isCall a hb]
  omega

/-- A `Reset` shows the call it abandons and leaves none to make (R202). -/
theorem callsWithin_resetBlock {s : State} (hb : s.phase ≠ .idle) : callsWithin s (resetBlock s) := by
  refine ⟨.reset (pendingCall s) :: statusChange (statusByte s) 0x00#8, by simp, ?_⟩
  have hpos := callsLeft_pos_of_busy hb
  obtain ⟨c, hc⟩ := pendingCall_busy hb
  have hleft : callsLeft (resetBlock s) = 0 := rfl
  rw [hleft, hc, List.filter_cons_of_pos rfl, filter_isCall_statusChange]
  exact hpos

theorem callsWithin_discardAnswer (a : Answer) (s : State) : callsWithin s (discardAnswer a s) := by
  obtain ⟨-, e⟩ | ⟨-, e⟩ := discardAnswer_cases a s
  · rw [e]
    exact ⟨[.lateAnswer a], rfl, (Nat.zero_add _).le⟩
  · rw [e]
    exact callsWithin_of_sameBlock rfl

/-- The platform does not touch the line of a busy framer (log entry 19). -/
theorem restoreLine_busy {s : State} (hb : s.phase ≠ .idle) : restoreLine s = s :=
  if_neg fun h => hb h.1

theorem callsWithin_takeEnvironment (e : EnvEvent) {s : State} (h : positioned s) (hb : s.phase ≠ .idle) :
    callsWithin s (takeEnvironment e s) := by
  cases e with
  | answer a => exact callsWithin_framerStep a h hb
  | lateAnswer a => exact callsWithin_discardAnswer a s
  | reset => exact callsWithin_resetBlock hb
  | restoreLine => rw [takeEnvironment, restoreLine_busy hb]; exact callsWithin_of_sameBlock rfl

/-- A turn of `WAIT` is an `RDS`, and perhaps what environment or platform do next (R71). -/
theorem callsWithin_waitTurn {s : State} (h : positioned s) (hb : s.phase ≠ .idle) : callsWithin s (waitTurn s) := by
  obtain ⟨-, e⟩ | ⟨-, -, e⟩ | ⟨-, ev, rest, -, e⟩ := waitTurn_cases s
  · rw [e]; exact callsWithin_of_sameBlock rfl
  · rw [e]; exact callsWithin_of_sameBlock rfl
  · rw [e]; exact callsWithin_takeEnvironment ev (s := setInputs rest (readStatus s)) h hb

/-- Whatever comes next to a busy framer, the calls it makes are among those that were left (R91). -/
theorem callsWithin_step {s t : State} (h : positioned s) (hb : s.phase ≠ .idle) (hs : step s = .next t) :
    callsWithin s t := by
  cases hq : s.inputs with
  | nil =>
    cases (step_nil hq).symm.trans hs
    exact callsWithin_of_sameBlock rfl
  | cons x rest =>
    cases x with
    | env e =>
      cases (step_env hq).symm.trans hs
      exact callsWithin_takeEnvironment e (s := setInputs rest s) h hb
    | host op =>
      by_cases hw : op = .wait
      · subst hw
        cases (step_host hq).symm.trans hs
        exact callsWithin_waitTurn (s := setInputs rest s) h hb
      · obtain ⟨u, hu, hsame, -⟩ := step_onlyHostActs hb hq fun hop => absurd hop hw
        cases hu.symm.trans hs
        exact callsWithin_of_sameBlock hsame

/-! ### A transaction ends with `RELEASE` and `DONE` -/

/-- In `t` a transaction has ended (R95): its last events since `seen` are `CsSet(high)` and the change of `STATUS`, and
the calls since then are at most `bound`. -/
def releasedAfter (seen : List TraceEvent) (bound : Nat) (t : State) : Prop :=
  t.phase = .idle ∧ t.done = true ∧ ∃ (events : List TraceEvent) (ok : Bool),
    t.trace = seen ++ (events ++ [.csSet .high ok, .status (statusByte t)]) ∧ (events.filter isCall).length + 1 ≤ bound

/-- Events that stand before, with their calls counted. -/
theorem releasedAfter.of_more {seen more : List TraceEvent} {m n : Nat} {t : State}
    (h : releasedAfter (seen ++ more) m t) (hn : (more.filter isCall).length + m ≤ n) : releasedAfter seen n t := by
  obtain ⟨hp, hd, events, ok, ht, hcalls⟩ := h
  refine ⟨hp, hd, more ++ events, ok, by rw [ht]; simp only [List.append_assoc], ?_⟩
  rw [List.filter_append, List.length_append]
  omega

/-- A transaction that goes on from `s` to `u` and ends from there. -/
theorem releasedAfter.of_callsWithin {s u t : State} (h : releasedAfter u.trace (callsLeft u) t)
    (hu : callsWithin s u) : releasedAfter s.trace (callsLeft s) t := by
  obtain ⟨events, htrace, hcalls⟩ := hu
  rw [htrace] at h
  exact h.of_more hcalls

/-- The `RELEASE` step ends the transaction (R95). -/
theorem releasedAfter_framerStep (a : Answer) {s : State} (hp : s.phase = .release) :
    releasedAfter s.trace (callsLeft s) (framerStep a s) := by
  refine ⟨by rw [framerStep_release a hp], by rw [framerStep_release a hp], [], a.isOk, ?_, by simp [callsLeft, hp]⟩
  rw [statusByte_release a hp, framerStep_release a hp]
  rfl

/-- Only the `RELEASE` step leads to `IDLE` (R15). -/
theorem release_of_framerStep_idle {a : Answer} {s : State} (h : running s) (hi : (framerStep a s).phase = .idle) :
    s.phase = .release := by
  obtain ⟨hpos, hb, -⟩ := h
  obtain ⟨-, -, ht, -⟩ | ⟨-, -, ht, -⟩ | ⟨-, -, -, ht, -⟩ | ⟨-, -, -, ht, -⟩ | ⟨-, -, ht, -⟩ | ⟨hp, -⟩ :=
    framerStep_moves a hpos hb
  · cases hi.symm.trans ht
  · cases hi.symm.trans ht
  · cases hi.symm.trans ht
  · cases hi.symm.trans ht
  · cases hi.symm.trans ht
  · exact hp

/-- An answer ends the transaction or leaves it running with fewer calls to make (R91). -/
theorem released_or_runs {s : State} (h : running s) (a : Answer) :
    releasedAfter s.trace (callsLeft s) (framerStep a s) ∨
    (running (framerStep a s) ∧ callsLeft (framerStep a s) < callsLeft s) :=
  (h.framerStep a).imp_left fun ⟨hi, _⟩ => releasedAfter_framerStep a (release_of_framerStep_idle h hi)

/-- The run over answers enough for the calls that are left. -/
theorem releasedAfter_runAnswers (answers : List Answer) (rest : List Input) {s : State} (h : running s)
    (hcalls : callsLeft s ≤ answers.length) :
    releasedAfter s.trace (callsLeft s) (runAnswers (answerInputs answers ++ rest) s) := by
  induction answers generalizing s with
  | nil => exact absurd hcalls (Nat.not_le_of_gt h.callsLeft_pos)
  | cons a answers ih =>
    have hrun : runAnswers (answerInputs (a :: answers) ++ rest) s =
        runAnswers (answerInputs answers ++ rest) (framerStep a s) :=
      runAnswers_answer a _ h.busy
    rw [hrun]
    obtain hend | ⟨hgo, hless⟩ := released_or_runs h a
    · rw [runAnswers_idle _ hend.1]
      exact hend
    · rw [List.length_cons] at hcalls
      exact (ih hgo (by omega)).of_callsWithin (callsWithin_framerStep a h.1 h.busy)

/-- Settles O44: the accepted command has `L + 2` calls to make, and neither its own event nor the change of `STATUS` that
follows it is one. -/
theorem answeredTransactionEnds : Obligations.AnsweredTransactionEnds := by
  intro s op addr n answers rest hp hl hlen hq
  have hend := releasedAfter_runAnswers answers rest (running_acceptCommand hl s) (by rw [callsLeft_acceptCommand, hlen])
  rw [acceptCommand_trace, List.append_assoc, callsLeft_acceptCommand] at hend
  refine ⟨_, exec_legal hp hl, ?_⟩
  rw [hq]
  exact hend.of_more (by simp [isCall])

/-! ### Polls between the answers -/

/-- Some number of steps leads from `s` to `t`. -/
def reaches (s t : State) : Prop := ∃ k, Host.Core.run core k s = .next t

theorem reaches_refl (s : State) : reaches s s := ⟨0, rfl⟩

theorem reaches.of_step {s u t : State} (ht : reaches u t) (hs : step s = .next u) : reaches s t := by
  obtain ⟨k, hk⟩ := ht
  exact ⟨k + 1, (run_succ k hs).trans hk⟩

theorem reaches.trans {s u t : State} (hu : reaches s u) (ht : reaches u t) : reaches s t := by
  obtain ⟨k, hk⟩ := hu
  induction k generalizing s with
  | zero => cases hk; exact ht
  | succ k ih =>
    cases hs : step s with
    | next v => exact (ih ((run_succ k hs).symm.trans hk)).of_step hs
    | fault r => cases r
    | refused r => simp [Host.Core.run, core, hs] at hk

/-- An operation that is a single access of the host: it puts no further operation before what is to come. -/
def isAccess : HostOp → Bool
  | .write _ _ => true
  | .read _ => true
  | .convert _ => true
  | .convertSample _ => true
  | .wait => false
  | .readResponse _ => false
  | .motionDecode => false

theorem readRegister_inputs (reg : BitVec 8) (s : State) : (readRegister reg s).inputs = s.inputs := by
  unfold readRegister
  split <;> rfl

/-- A single access of a busy block is over after its step, and the block is as it was. -/
theorem step_access {s : State} {op : HostOp} {rest : List Input} (hb : s.phase ≠ .idle) (ha : isAccess op = true)
    (hq : s.inputs = .host op :: rest) : ∃ t, step s = .next t ∧ sameBlock s t ∧ t.inputs = rest := by
  have hw : op ≠ .wait := by rintro rfl; cases ha
  obtain ⟨t, hs, hsame, -⟩ := step_onlyHostActs hb hq fun h => absurd h hw
  refine ⟨t, hs, hsame, ?_⟩
  rw [step_host hq] at hs
  cases op with
  | write reg v =>
    cases (writeRegister_busy (s := setInputs rest s) reg v hb).symm.trans hs
    rfl
  | read reg =>
    cases hs
    exact readRegister_inputs reg _
  | convert x => cases hs; rfl
  | convertSample k => cases hs; rfl
  | wait => cases ha
  | readResponse n => cases ha
  | motionDecode => cases ha

/-- So is a list of them. -/
theorem reaches_accesses (ops : List HostOp) {s : State} {rest : List Input} (hb : s.phase ≠ .idle)
    (ha : ∀ op ∈ ops, isAccess op = true) (hq : s.inputs = ops.map .host ++ rest) :
    ∃ t, reaches s t ∧ sameBlock s t ∧ t.inputs = rest := by
  induction ops generalizing s with
  | nil => exact ⟨s, reaches_refl s, rfl, hq⟩
  | cons op ops ih =>
    obtain ⟨u, hs, hsame, hu⟩ := step_access hb (ha op List.mem_cons_self) hq
    obtain ⟨t, ht, hsame', hrest⟩ := ih (hsame.phase ▸ hb) (fun o ho => ha o (List.mem_cons_of_mem _ ho)) hu
    exact ⟨t, ht.of_step hs, hsame.trans hsame', hrest⟩

theorem isAccess_responseReads (n : Nat) : ∀ op ∈ responseReads n, isAccess op = true := by
  intro op hop
  obtain ⟨i, -, rfl⟩ := List.mem_map.mp hop
  rfl

theorem isAccess_motionConversions : ∀ op ∈ motionConversions, isAccess op = true := by
  simp [motionConversions, isAccess]

/-- A host operation but `WAIT` on a busy block is over after some steps, with the operations it continues with. -/
theorem reaches_after_hostOp {s : State} {op : HostOp} {rest : List Input} (hb : s.phase ≠ .idle) (hw : op ≠ .wait)
    (hq : s.inputs = .host op :: rest) : ∃ t, reaches s t ∧ sameBlock s t ∧ t.inputs = rest := by
  have access (ha : isAccess op = true) : ∃ t, reaches s t ∧ sameBlock s t ∧ t.inputs = rest :=
    reaches_accesses [op] hb (by simpa using ha) hq
  have continues (ops : List HostOp) (hops : ∀ o ∈ ops, isAccess o = true)
      (hs : hostStep op (setInputs rest s) = .next (hostContinues ops (setInputs rest s))) :
      ∃ t, reaches s t ∧ sameBlock s t ∧ t.inputs = rest := by
    have hsame : sameBlock s (hostContinues ops (setInputs rest s)) := rfl
    obtain ⟨t, ht, hsame', hrest⟩ := reaches_accesses ops (s := hostContinues ops (setInputs rest s)) hb hops rfl
    exact ⟨t, ht.of_step ((step_host hq).trans hs), hsame.trans hsame', hrest⟩
  cases op with
  | write reg v => exact access rfl
  | read reg => exact access rfl
  | convert x => exact access rfl
  | convertSample k => exact access rfl
  | wait => exact absurd rfl hw
  | readResponse n =>
    obtain ⟨-, e⟩ | ⟨-, e⟩ := readResponse_cases n (setInputs rest s)
    · exact continues _ (isAccess_responseReads n) (congrArg _ e)
    · exact continues [] (by simp) (congrArg _ e)
  | motionDecode =>
    obtain ⟨-, e⟩ | ⟨-, e⟩ := decodeMotion_cases (setInputs rest s)
    · exact continues _ isAccess_motionConversions (congrArg _ e)
    · exact continues [] (by simp) (congrArg _ e)

/-- Host operations but `WAIT`, and no `Reset`: what may stand among a transaction's answers. -/
def onlyPolls (q : List Input) : Prop := ∀ x ∈ q, x ≠ .host .wait ∧ x ≠ .env .reset

theorem running_of_sameBlock {s t : State} (h : sameBlock s t) (hr : running s) : running t := by
  unfold sameBlock at h
  rw [h]
  exact hr

theorem running_discardAnswer (a : Answer) {s : State} (h : running s) : running (discardAnswer a s) := by
  obtain ⟨-, e⟩ | ⟨-, e⟩ := discardAnswer_cases a s
  · rw [e]; exact h
  · rw [e]; exact h

theorem discardAnswer_inputs (a : Answer) (s : State) : (discardAnswer a s).inputs = s.inputs := by
  obtain ⟨-, e⟩ | ⟨-, e⟩ := discardAnswer_cases a s <;> rw [e]

theorem callsWithin.callsLeft_le {s t : State} (h : callsWithin s t) : callsLeft t ≤ callsLeft s := by
  obtain ⟨events, -, hcalls⟩ := h
  omega

/-- Among polls and the like, answers enough for the calls that are left end the transaction. -/
theorem reaches_released (q : List Input) {s : State} (h : running s) (hq : s.inputs = q) (hpolls : onlyPolls q)
    (hcalls : callsLeft s ≤ answerCount q) : ∃ t, reaches s t ∧ releasedAfter s.trace (callsLeft s) t := by
  induction q generalizing s with
  | nil => exact absurd hcalls (Nat.not_le_of_gt h.callsLeft_pos)
  | cons x q ih =>
    obtain ⟨⟨hwait, hreset⟩, hpolls'⟩ := List.forall_mem_cons.mp hpolls
    have goes {u : State} (hsu : reaches s u) (hu : running u) (huq : u.inputs = q) (hwithin : callsWithin s u)
        (hle : callsLeft u ≤ answerCount q) : ∃ t, reaches s t ∧ releasedAfter s.trace (callsLeft s) t := by
      obtain ⟨t, ht, hend⟩ := ih hu huq hpolls' hle
      exact ⟨t, hsu.trans ht, hend.of_callsWithin hwithin⟩
    cases x with
    | host op =>
      obtain ⟨u, hsu, hsame, huq⟩ := reaches_after_hostOp h.busy (fun hop => hwait (congrArg _ hop)) hq
      have hwithin := callsWithin_of_sameBlock hsame
      exact goes hsu (running_of_sameBlock hsame h) huq hwithin (hwithin.callsLeft_le.trans hcalls)
    | env e =>
      have hwithin := callsWithin_takeEnvironment e (s := setInputs q s) h.1 h.busy
      have hsu := (reaches_refl (takeEnvironment e (setInputs q s))).of_step (step_env hq)
      cases e with
      | answer a =>
        obtain hend | ⟨hgo, hless⟩ := released_or_runs (s := setInputs q s) h a
        · exact ⟨_, hsu, hend⟩
        · exact goes hsu hgo (framerStep_inputs a _) hwithin (Nat.le_of_lt_succ (Nat.lt_of_lt_of_le hless hcalls))
      | lateAnswer a =>
        exact goes hsu (running_discardAnswer a (s := setInputs q s) h) (discardAnswer_inputs a _) hwithin
          (hwithin.callsLeft_le.trans hcalls)
      | reset => exact absurd rfl hreset
      | restoreLine =>
        rw [takeEnvironment, restoreLine_busy (s := setInputs q s) h.busy] at hwithin hsu
        exact goes hsu h rfl hwithin (hwithin.callsLeft_le.trans hcalls)

/-- A busy state of the invariant has a command in progress (R18). -/
theorem running_of_invariant {s : State} (h : invariant s) (hb : s.phase ≠ .idle) : running s := by
  obtain ⟨hpos, hlatch, hf, -⟩ := h
  exact ⟨⟨hpos, hlatch⟩, hb, ((flagInvariant_iff_of_busy hb).mp hf).1⟩

/-- Settles O53: the bound by `callsWithin_step`, the end by `reaches_released`. -/
theorem polledTransactionEnds : Obligations.PolledTransactionEnds := by
  refine ⟨fun s op addr n => callsLeft_acceptCommand op addr n s, fun s t h hb hs => ?_, fun s h hb hpolls hcalls => ?_⟩
  · exact callsWithin_step (running_of_invariant h hb).1 hb hs
  · obtain ⟨t, ⟨k, hrun⟩, hp, hd, events, ok, htrace, hbound⟩ :=
      reaches_released s.inputs (running_of_invariant h hb) rfl hpolls hcalls
    exact ⟨k, t, events, ok, hrun, hp, hd, htrace, hbound⟩

/-! ### Whole transactions -/

/-- The bytes sent do not depend on the registers that received bytes have replaced: byte `i` is read from a register that
no byte before it was stored in (R65, R12). -/
theorem frameByte_congr {op : Op} {addr : BitVec 7} {n : BitVec 5} (hl : legalFields op addr n = true)
    {d d' : Vector Byte Config.nmax} {i : Nat} (hi : i < frameLength op n)
    (h : ∀ j, j < Config.nmax → i ≤ headerLength op + j → dataAt d' j = dataAt d j) :
    frameByte op addr d' i = frameByte op addr d i := by
  have hL := frameLength_eq hl
  obtain ⟨-, hmax⟩ := legalFields_count hl
  by_cases h0 : i = 0
  · simp [frameByte, h0]
  · cases op with
    | imuWr =>
      simp only [headerLength] at hL h
      simpa [frameByte, h0] using h (i - 1) (by omega) (by omega)
    | imuRd => rfl
    | tpWr =>
      simp only [headerLength, frameLength] at hi h
      simpa [frameByte, h0] using h 0 (by decide) (by omega)
    | tpRd => rfl

/-- The first bytes of a frame. -/
theorem frame_take (op : Op) (addr : BitVec 7) (n : BitVec 5) (d : Vector Byte Config.nmax) {k : Nat}
    (hk : k ≤ frameLength op n) : (List.range k).map (frameByte op addr d) = (frame op addr n d).take k := by
  rw [frame, ← List.map_take, List.take_range, Nat.min_eq_left hk]

/-- Where the framer is in `t` after it accepted `op addr, n` in `s`, had `CsSet(low)` answered `ok` and exchanged the bytes
`rx` (R92, R93). -/
structure Exchanged (s t : State) (op : Op) (addr : BitVec 7) (n : BitVec 5) (rx : List Byte) : Prop where
  /-- What the exchanges leave alone, and the events. -/
  state : t = { s with
    d := t.d, phase := t.phase, idx := t.idx, done := false, xferErr := false, csErr := false, cmdErr := false,
    cOp := op, cAddr := addr, cN := n, csLine := .low,
    inputs := t.inputs,
    trace := s.trace ++ .command (Instr.command op addr n) :: .status 0x01#8 :: .csSet .low true ::
      exchanges ((frame op addr n s.d).take rx.length) rx }
  /-- With bytes of the frame left to send. -/
  going : rx.length < frameLength op n → t.phase = .xfer ∧ t.idx.toNat = rx.length
  /-- With the whole frame sent. -/
  sent : rx.length = frameLength op n → t.phase = .release
  /-- The registers no byte was stored in. -/
  kept : ∀ j, j < Config.nmax → rx.length ≤ headerLength op + j → dataAt t.d j = dataAt s.d j
  /-- The registers a byte was stored in. -/
  stored : ∀ j, j < Config.nmax → headerLength op + j < rx.length → rx[headerLength op + j]? = some (dataAt t.d j)

/-- The run of a legal command up to there. -/
theorem runAnswers_exchanged {s : State} {op : Op} {addr : BitVec 7} {n : BitVec 5} (a0 : Byte) {rx : List Byte}
    (hp : s.phase = .idle) (hl : legalFields op addr n = true) (hrx : rx.length ≤ frameLength op n) :
    ∃ t, Exchanged s t op addr n rx ∧ ∀ q,
      runAnswers (okAnswer a0 :: (rx.map okAnswer ++ q)) (acceptCommand op addr n s) = runAnswers q t := by
  have hopen := framerStep_assert_ok a0 (acceptCommand_phase op addr n s)
  obtain ⟨t, hrun, ht, hgoing, hsent, hkept, hstored⟩ :=
    runAnswers_exchanges rx (setPosition .xfer 0#5 (csSet .low (.ok a0) (acceptCommand op addr n s))) rfl hl
      (frameLength_pos op n) (by simpa using hrx)
  simp only [setPosition_cOp, setPosition_cAddr, setPosition_cN, setPosition_idx, setPosition_d, csSet_cOp, csSet_cAddr,
    csSet_cN, csSet_d, acceptCommand_cOp, acceptCommand_cAddr, acceptCommand_cN, acceptCommand_d, BitVec.toNat_ofNat,
    Nat.zero_mod, Nat.zero_add, Nat.sub_zero] at ht hgoing hsent hkept hstored
  refine ⟨t, ⟨?_, hgoing, fun h => (hsent h).1, fun j hj h => hkept j hj (.inr h),
    fun j hj h => hstored j hj (Nat.zero_le _) h⟩, fun q => ?_⟩
  · rw [frame_take op addr n s.d hrx, setPosition_trace, csSet_trace, acceptCommand_eq op addr n hp] at ht
    rw [ht]
    simp [setPosition, csSet, lineAfter, Answer.isOk]
  · rw [okAnswer, runAnswers_answer _ _ (by simp), hopen]
    exact hrun q

/-- The state `u` before the `RELEASE` step of a transaction of `op addr, n` that began in `s`: `STATUS`, the events so far,
and `D[n..]` and the host's log as they were. -/
structure Releasing (s u : State) (op : Op) (addr : BitVec 7) (n : BitVec 5) (events : List TraceEvent) (status : Byte) :
    Prop where
  phase : u.phase = .release
  status : statusByte u = status
  command : u.cOp = op ∧ u.cAddr = addr ∧ u.cN = n
  trace : u.trace = s.trace ++ events
  hostLog : u.hostLog = s.hostLog
  kept : ∀ j, n.toNat ≤ j → j < Config.nmax → dataAt u.d j = dataAt s.d j

/-- The `RELEASE` step ends the transaction, whatever `CsSet(high)` answers (R95), and does not touch `D`. -/
theorem Releasing.ends {s u : State} {op : Op} {addr : BitVec 7} {n : BitVec 5} {events : List TraceEvent} {status : Byte}
    (h : Releasing s u op addr n events status) (last : Answer) (rest : List Input) :
    ∃ t, runAnswers (.env (.answer last) :: rest) u = t ∧
      endsTransaction s t op addr n (events ++ [.csSet .high last.isOk, .status (releasedStatus status last)])
        (releasedStatus status last) (if last.isOk then .high else .unknown) rest ∧
      t.d = u.d ∧ t.draws = u.draws := by
  obtain ⟨hphase, hstatus, ⟨hop, haddr, hn⟩, htrace, hlog, hkept⟩ := h
  have hrun : runAnswers (.env (.answer last) :: rest) u = setInputs rest (framerStep last u) := by
    rw [runAnswers_answer last rest (by simp [hphase]), runAnswers_idle _ (by rw [framerStep_release last hphase])]
  have hfinal : statusByte (framerStep last u) = releasedStatus status last := hstatus ▸ statusByte_release last hphase
  refine ⟨_, hrun, ⟨?_, ?_, hfinal, ?_⟩, ?_, ?_⟩
  · rw [framerStep_release last hphase]; rfl
  · rw [framerStep_release last hphase]; rfl
  · rw [framerStep_release last hphase]
    refine ⟨hop, haddr, hn, ?_, rfl, rfl, hlog, hkept⟩
    simp [htrace, hstatus]
  · rw [framerStep_release last hphase]; rfl
  · rw [framerStep_release last hphase]; rfl

/-- No flag but `BUSY` is set in a running transaction without an error. -/
theorem Exchanged.status {s t : State} {op : Op} {addr : BitVec 7} {n : BitVec 5} {rx : List Byte}
    (h : Exchanged s t op addr n rx) (hb : t.phase ≠ .idle) : statusByte t = 0x01#8 := by
  have hflags : t.done = false ∧ t.xferErr = false ∧ t.csErr = false ∧ t.cmdErr = false := by
    rw [h.state]
    exact ⟨rfl, rfl, rfl, rfl⟩
  obtain ⟨hd, hx, hc, hm⟩ := hflags
  simp [statusByte, busy, hb, hd, hx, hc, hm]

/-- Settles O41: after the exchanges the framer is in `RELEASE`, with `STATUS` still 0x01. -/
theorem transactionWithAllBytesExchanged : Obligations.TransactionWithAllBytesExchanged := by
  intro s op addr n a0 last rx rest hp hl hrx hq
  have hL := frameLength_eq hl
  obtain ⟨-, hmax⟩ := legalFields_count hl
  obtain ⟨u, hu, hrun⟩ := runAnswers_exchanged a0 hp hl hrx.le
  have hphase := hu.sent hrx
  have hreleasing : Releasing s u op addr n (.command (Instr.command op addr n) :: .status 0x01#8 :: .csSet .low true ::
      exchanges (frame op addr n s.d) rx) 0x01#8 := by
    refine ⟨hphase, hu.status (by simp [hphase]), ?_, ?_, ?_, fun j hj hjmax => hu.kept j hjmax (by omega)⟩
    · rw [hu.state]; exact ⟨rfl, rfl, rfl⟩
    · rw [hu.state, List.take_of_length_le (by simp [frame, hrx])]
    · rw [hu.state]
  obtain ⟨t, ht, hends, hd, hdraws⟩ := hreleasing.ends last rest
  have hstatus : releasedStatus 0x01#8 last = if last.isOk then 0x02#8 else 0x0A#8 := by
    unfold releasedStatus
    split <;> rfl
  rw [hstatus] at hends
  refine ⟨t, ?_, hends, fun j hj => ?_, ?_⟩
  · rw [exec_legal hp hl, hq, hrun, ht]
  · rw [hd]
    exact hu.stored j (by omega) (by omega)
  · rw [hdraws, hu.state]

/-- Settles O42: the failed `ASSERT` step leads to `RELEASE` with `STATUS` 0x09, where the error stays set. -/
theorem transactionWithFailedAssert : Obligations.TransactionWithFailedAssert := by
  intro s op addr n last rest hp hl hq
  have hassert := framerStep_failedAssert (acceptCommand_phase op addr n s)
  have hbefore : statusByte (acceptCommand op addr n s) = 0x01#8 := by simp [statusByte, busy]
  have hreleasing : Releasing s (framerStep .err (acceptCommand op addr n s)) op addr n
      [.command (Instr.command op addr n), .status 0x01#8, .csSet .low false, .status 0x09#8] 0x09#8 := by
    refine ⟨by rw [hassert], ?_, by simp, ?_, by simp, fun j _ _ => by rw [hassert]; rfl⟩
    · rw [statusByte_failedAssert (acceptCommand_phase op addr n s), hbefore]
      rfl
    · rw [hassert, hbefore, acceptCommand_eq op addr n hp]
      simp [statusChange]
  obtain ⟨t, ht, hends, hd, hdraws⟩ := hreleasing.ends last rest
  have hstatus : releasedStatus 0x09#8 last = 0x0A#8 := by
    unfold releasedStatus
    split <;> rfl
  rw [hstatus] at hends
  refine ⟨t, ?_, hends, ?_, ?_⟩
  · rw [exec_legal hp hl, hq, errAnswer, runAnswers_answer _ _ (by simp), ht]
  · rw [hd, hassert]; rfl
  · rw [hdraws, hassert]; rfl

/-- Settles O43: the exchanges before the failed one leave `STATUS` at 0x01 and the byte to be sent as it was; the failed
one leads to `RELEASE` with `STATUS` 0x05. -/
theorem transactionWithFailedExchange : Obligations.TransactionWithFailedExchange := by
  intro s op addr n a0 last rx rest hp hl hrx hq
  have hL := frameLength_eq hl
  obtain ⟨u, hu, hrun⟩ := runAnswers_exchanged a0 hp hl hrx.le
  obtain ⟨hphase, hidx⟩ := hu.going hrx
  have hbefore : statusByte u = 0x01#8 := hu.status (by simp [hphase])
  have hlatched : u.cOp = op ∧ u.cAddr = addr ∧ u.cN = n := by rw [hu.state]; exact ⟨rfl, rfl, rfl⟩
  obtain ⟨hop, haddr, hn⟩ := hlatched
  have hbyte : nextByte u = frameByte op addr s.d rx.length := by
    rw [nextByte, hop, haddr, hidx]
    exact frameByte_congr hl hrx hu.kept
  have hreleasing : Releasing s (framerStep .err u) op addr n
      (.command (Instr.command op addr n) :: .status 0x01#8 :: .csSet .low true ::
        (exchanges ((frame op addr n s.d).take rx.length) rx ++
          [.xchg (frameByte op addr s.d rx.length) .err, .status 0x05#8])) 0x05#8 := by
    refine ⟨by rw [framerStep_failedExchange hphase], ?_, ?_, ?_, ?_, fun j hj hmax => ?_⟩
    · rw [statusByte_failedExchange hphase, hbefore]
      rfl
    · simp [hop, haddr, hn]
    · rw [framerStep_failedExchange hphase, hbyte, hbefore, hu.state]
      simp [statusChange]
    · rw [framerStep_hostLog, hu.state]
    · rw [framerStep_failedExchange hphase, dataAt_scrambleData, hn, if_neg (by omega)]
      exact hu.kept j hmax (by omega)
  obtain ⟨t, ht, hends, -⟩ := hreleasing.ends last rest
  have hstatus : releasedStatus 0x05#8 last = if last.isOk then 0x06#8 else 0x0E#8 := by
    unfold releasedStatus
    split <;> rfl
  rw [hstatus] at hends
  refine ⟨t, ?_, by simpa using hends⟩
  rw [exec_legal hp hl, hq, hrun, errAnswer, runAnswers_answer _ _ (by simp [hphase]), ht]

/-! ### The four commands -/

/-- The frame of `IMU_WR` (R66, R100). -/
theorem frame_imuWr (addr : BitVec 7) (n : BitVec 5) (d : Vector Byte Config.nmax) :
    frame .imuWr addr n d = (0x00#8 ||| addr.setWidth 8) :: (List.range n.toNat).map (dataAt d) := by
  simp [frame, frameLength, List.range_succ_eq_map, frameByte, byte0, headerConstant, Function.comp_def]

/-- The frame of `IMU_RD` (R66, R101). -/
theorem frame_imuRd (addr : BitVec 7) (n : BitVec 5) (d : Vector Byte Config.nmax) :
    frame .imuRd addr n d = (0x80#8 ||| addr.setWidth 8) :: List.replicate n.toNat 0x00#8 := by
  simp [frame, frameLength, List.range_succ_eq_map, frameByte, byte0, headerConstant, Function.comp_def, Config.imuFill,
    Config.imuRdFlag]

/-- The frame of `TP_WR` (R66, R102). -/
theorem frame_tpWr (addr : BitVec 7) (n : BitVec 5) (d : Vector Byte Config.nmax) :
    frame .tpWr addr n d = [0x80#8 ||| addr.setWidth 8, d[0]] := by
  simp [frame, frameLength, List.range_succ_eq_map, frameByte, byte0, headerConstant, Config.tpWrOp, dataAt]

/-- The frame of `TP_RD` (R66, R103). -/
theorem frame_tpRd (addr : BitVec 7) (n : BitVec 5) (d : Vector Byte Config.nmax) :
    frame .tpRd addr n d = (0xA0#8 ||| addr.setWidth 8) :: List.replicate (n.toNat + 1) 0xFC#8 := by
  simp [frame, frameLength, List.range_succ_eq_map, frameByte, byte0, headerConstant, Function.comp_def, Config.tpFill,
    Config.tpRdOp, List.replicate_succ]

/-- The device reads the address of an IMU-style write, and takes the payload (R63, R68). -/
theorem deviceAccess_imuWr (addr : BitVec 7) (payload rx : List Byte) :
    deviceAccess .imu ((0x00#8 ||| addr.setWidth 8) :: payload) rx = some (.memWrite .imu addr payload) := by
  simp [deviceAccess]

/-- The device reads the address of an IMU-style read, and answers from the byte after it on (R63, R68). -/
theorem deviceAccess_imuRd (addr : BitVec 7) (fill rx : List Byte) (r0 : Byte) :
    deviceAccess .imu ((0x80#8 ||| addr.setWidth 8) :: fill) (r0 :: rx) = some (.memRead .imu addr rx) := by
  simp [deviceAccess]

/-- The command byte of a TP-style write is its opcode and the address (R63). -/
theorem tpWr_byte0 {addr : BitVec 7} (h : addr.toNat < 32) : (0x80#8 ||| addr.setWidth 8).extractLsb' 5 3 = 0b100#3 ∧
    ((0x80#8 ||| addr.setWidth 8).setWidth 5).setWidth 7 = addr := by
  revert addr
  decide

/-- The command byte of a TP-style read is its opcode and the address (R63). -/
theorem tpRd_byte0 {addr : BitVec 7} (h : addr.toNat < 32) : (0xA0#8 ||| addr.setWidth 8).extractLsb' 5 3 = 0b101#3 ∧
    ((0xA0#8 ||| addr.setWidth 8).setWidth 5).setWidth 7 = addr := by
  revert addr
  decide

/-- The device reads the address of a TP-style write, and takes the payload (R63, R68). -/
theorem deviceAccess_tpWr {addr : BitVec 7} (h : addr.toNat < 32) (payload rx : List Byte) :
    deviceAccess .tp ((0x80#8 ||| addr.setWidth 8) :: payload) rx = some (.memWrite .tp addr payload) := by
  obtain ⟨hop, haddr⟩ := tpWr_byte0 h
  simp only [deviceAccess, hop, haddr]
  rfl

/-- The device reads the address of a TP-style read, and answers after the two bytes of the header (R63, R68). -/
theorem deviceAccess_tpRd {addr : BitVec 7} (h : addr.toNat < 32) (fill rx : List Byte) (r0 r1 : Byte) :
    deviceAccess .tp ((0xA0#8 ||| addr.setWidth 8) :: fill) (r0 :: r1 :: rx) = some (.memRead .tp addr rx) := by
  obtain ⟨hop, haddr⟩ := tpRd_byte0 h
  simp only [deviceAccess, hop, haddr]
  rfl

/-- Where the bytes received after the header are stored, they are what `D[0..n-1]` hold. -/
theorem data_eq_of_responseStored {t : State} {hdr : Nat} {header response : List Byte} (hhdr : header.length = hdr)
    (h : responseStored t hdr response.length (header ++ response)) :
    (List.range response.length).map (dataAt t.d) = response := by
  refine List.ext_getElem (by simp) fun j hj hj' => ?_
  have hstored := h j hj'
  rw [List.getElem?_append_right (by omega), hhdr, Nat.add_sub_cancel_left, List.getElem?_eq_getElem hj'] at hstored
  simpa using (Option.some.inj hstored).symm

/-- The legal counts and addresses of the four commands (R62). -/
theorem legalFields_iff (op : Op) (addr : BitVec 7) (n : BitVec 5) : legalFields op addr n = true ↔
    1 ≤ n.toNat ∧ n.toNat ≤ 16 ∧ (op.style = .imu ∨ addr.toNat < 32) ∧ (op ≠ .tpWr ∨ n.toNat = 1) := by
  simp only [legalFields, Bool.and_eq_true, addressFits_iff, singlePayload_iff, countNonzero, countInRange,
    decide_eq_true_eq, and_assoc]

/-- Settles O37: by `transactionWithAllBytesExchanged`, with the frame of `IMU_WR`. -/
theorem imuWriteTransaction : Obligations.ImuWriteTransaction := by
  intro s addr n a0 a1 rx rest hp hn hmax hrx hq
  have hl : legalFields .imuWr addr n = true := (legalFields_iff _ _ _).mpr ⟨hn, hmax, .inl rfl, .inl nofun⟩
  obtain ⟨t, hexec, hends, hstored, hdraws⟩ :=
    transactionWithAllBytesExchanged s .imuWr addr n a0 (.ok a1) rx rest hp hl hrx hq
  rw [frame_imuWr] at hends
  exact ⟨t, hexec, hends, hstored, hdraws, deviceAccess_imuWr addr _ rx⟩

/-- Settles O38: by `transactionWithAllBytesExchanged`, with the frame of `IMU_RD`. -/
theorem imuReadTransaction : Obligations.ImuReadTransaction := by
  intro s addr n a0 a1 r0 response rest hp hn hmax hlen hq
  have hl : legalFields .imuRd addr n = true := (legalFields_iff _ _ _).mpr ⟨hn, hmax, .inl rfl, .inl nofun⟩
  obtain ⟨t, hexec, hends, hstored, hdraws⟩ := transactionWithAllBytesExchanged s .imuRd addr n a0 (.ok a1)
    (r0 :: response) rest hp hl (congrArg (· + 1) hlen) hq
  rw [frame_imuRd] at hends
  rw [← hlen] at hstored
  exact ⟨t, hexec, hends, hlen ▸ data_eq_of_responseStored (header := [r0]) rfl hstored, hdraws,
    deviceAccess_imuRd addr _ response r0⟩

/-- Settles O39: by `transactionWithAllBytesExchanged`, with the frame of `TP_WR`. -/
theorem touchpadWriteTransaction : Obligations.TouchpadWriteTransaction := by
  intro s addr a0 a1 r0 r1 rest hp haddr hq
  have hl : legalFields .tpWr addr 1#5 = true :=
    (legalFields_iff _ _ _).mpr ⟨by decide, by decide, .inr haddr, .inr rfl⟩
  obtain ⟨t, hexec, hends, hstored, hdraws⟩ :=
    transactionWithAllBytesExchanged s .tpWr addr 1#5 a0 (.ok a1) [r0, r1] rest hp hl rfl hq
  rw [frame_tpWr] at hends
  exact ⟨t, hexec, hends, (Option.some.inj (hstored 0 Nat.one_pos)).symm, hdraws, deviceAccess_tpWr haddr _ _⟩

/-- Settles O40: by `transactionWithAllBytesExchanged`, with the frame of `TP_RD`. -/
theorem touchpadReadTransaction : Obligations.TouchpadReadTransaction := by
  intro s addr n a0 a1 r0 r1 response rest hp haddr hn hmax hlen hq
  have hl : legalFields .tpRd addr n = true := (legalFields_iff _ _ _).mpr ⟨hn, hmax, .inr haddr, .inl nofun⟩
  obtain ⟨t, hexec, hends, hstored, hdraws⟩ := transactionWithAllBytesExchanged s .tpRd addr n a0 (.ok a1)
    (r0 :: r1 :: response) rest hp hl (congrArg (· + 2) hlen) hq
  rw [frame_tpRd] at hends
  rw [← hlen] at hstored
  exact ⟨t, hexec, hends, hlen ▸ data_eq_of_responseStored (header := [r0, r1]) rfl hstored, hdraws,
    deviceAccess_tpRd haddr _ response r0 r1⟩

end Sys2Proof.Proofs.FramerCommands
end

section
/-! PROOF. 41_converter.md: the byte join (O18), the fields of a result of the converter (O14), that the result is exact
(O15), injective and ordered (O16), and the shape of the results (O17). `signField_i16ToF32`, `exponentField_i16ToF32` and
`fractionField_i16ToF32` say once what the three fields of a result are; the value of R120 is computed from them alone, so
injectivity and order follow from exactness. -/

namespace Sys2Proof.Proofs.Converter

open Sys2Proof.Machine

/-! ### The byte join -/

theorem le16_eq_append (b0 b1 : Byte) : le16 b0 b1 = b1 ++ b0 := by
  unfold le16
  rw [BitVec.append_def, BitVec.shiftLeftZeroExtend_eq, BitVec.setWidth'_eq]

theorem le16_toNat (b0 b1 : Byte) : (le16 b0 b1).toNat = 256 * b1.toNat + b0.toNat := by
  rw [le16_eq_append, BitVec.toNat_append, ← Nat.shiftLeft_add_eq_or_of_lt b0.isLt, Nat.shiftLeft_eq, Nat.mul_comm]

/-- Settles O18: `le16` is the concatenation, and a concatenation is a sum. -/
theorem littleEndianJoin : Obligations.LittleEndianJoin :=
  ⟨fun b0 b1 => ⟨le16_eq_append b0 b1, le16_toNat b0 b1⟩, by decide, by decide⟩

/-! ### Packing the three fields of binary32 -/

/-- Shifted to their places of R120, the three fields do not overlap: their `|||` is a sum. -/
theorem toNat_packed_fields {s e f : Word} (hs : s.toNat < 2) (he : e.toNat < 2 ^ 8) (hf : f.toNat < 2 ^ 23) :
    ((s <<< 31) ||| (e <<< 23) ||| f).toNat = s.toNat * 2 ^ 31 + e.toNat * 2 ^ 23 + f.toNat := by
  have hse : ((s <<< 31) ||| (e <<< 23)).toNat = (s.toNat * 2 ^ 8 + e.toNat) <<< 23 := by
    have hs31 : (s <<< 31).toNat = (s.toNat <<< 8) <<< 23 := by
      simp only [BitVec.toNat_shiftLeft, Nat.shiftLeft_eq]
      omega
    have he23 : (e <<< 23).toNat = e.toNat <<< 23 := by
      simp only [BitVec.toNat_shiftLeft, Nat.shiftLeft_eq]
      omega
    rw [BitVec.toNat_or, hs31, he23, ← Nat.shiftLeft_or_distrib, ← Nat.shiftLeft_add_eq_or_of_lt he, Nat.shiftLeft_eq _ 8]
  rw [BitVec.toNat_or, hse, ← Nat.shiftLeft_add_eq_or_of_lt hf, Nat.shiftLeft_eq]
  ring

/-- A word is determined by its three fields (R120). -/
theorem eq_of_fields_eq {r t : Word} (hs : r.getLsbD 31 = t.getLsbD 31)
    (he : (r.extractLsb' 23 8).toNat = (t.extractLsb' 23 8).toNat)
    (hf : (r.extractLsb' 0 23).toNat = (t.extractLsb' 0 23).toNat) : r = t := by
  apply BitVec.eq_of_toNat_eq
  simp only [← BitVec.testBit_toNat, Nat.testBit_eq_decide_div_mod_eq, decide_eq_decide] at hs
  simp only [BitVec.extractLsb'_toNat, Nat.shiftRight_eq_div_pow] at he hf
  omega

/-! ### The magnitude and its highest 1 bit -/

/-- `p` is the position of the highest 1 bit of `|signed_16(x)|` (R123). -/
def topBitAt (x : Half) (p : Nat) : Prop := 2 ^ p ≤ x.toInt.natAbs ∧ x.toInt.natAbs < 2 ^ (p + 1)

theorem natAbs_toInt_le (x : Half) : x.toInt.natAbs ≤ 2 ^ 15 := by
  have hlo := BitVec.le_toInt x
  have hhi := BitVec.toInt_lt (x := x)
  omega

theorem toInt_ne_zero_of_topBitAt {x : Half} {p : Nat} (h : topBitAt x p) : x.toInt ≠ 0 :=
  Int.natAbs_pos.mp (Nat.lt_of_lt_of_le (Nat.two_pow_pos p) h.1)

theorem highestBit_of_topBitAt {x : Half} {p : Nat} (h : topBitAt x p) : highestBit (magnitude x) = p :=
  (Nat.log2_eq_iff (Int.natAbs_ne_zero.mpr (toInt_ne_zero_of_topBitAt h))).mpr h

theorem exists_topBitAt {x : Half} (hx : x.toInt ≠ 0) : ∃ p, topBitAt x p :=
  ⟨_, Nat.log2_self_le (Int.natAbs_ne_zero.mpr hx), Nat.lt_log2_self⟩

theorem topBitAt_le {x : Half} {p : Nat} (h : topBitAt x p) : p ≤ 15 :=
  (Nat.pow_le_pow_iff_right Nat.one_lt_two).mp (h.1.trans (natAbs_toInt_le x))

/-- Only the magnitude of `0x8000` has its highest bit at position 15. -/
theorem eq_intMin_of_topBitAt_fifteen {x : Half} (h : topBitAt x 15) : x = 0x8000#16 := by
  have hlo := h.1
  have hhi := BitVec.toInt_lt (x := x)
  have hmin := BitVec.le_toInt x
  have hv : x.toInt = (0x8000#16).toInt := by
    rw [show (0x8000#16).toInt = -2 ^ 15 by decide]
    omega
  exact BitVec.toInt_inj.mp hv

/-- The fraction field of R123 fits its 23 bits. -/
theorem fraction_lt {m p : Nat} (hp : p ≤ 23) (hm : m < 2 ^ (p + 1)) : (m - 2 ^ p) * 2 ^ (23 - p) < 2 ^ 23 := by
  have hrest : m - 2 ^ p < 2 ^ p := by omega
  calc (m - 2 ^ p) * 2 ^ (23 - p) < 2 ^ p * 2 ^ (23 - p) := Nat.mul_lt_mul_of_pos_right hrest (Nat.two_pow_pos _)
    _ = 2 ^ 23 := by rw [← Nat.pow_add, Nat.add_sub_cancel' hp]

/-! ### The fields of a result -/

theorem i16ToF32_of_toInt_eq_zero {x : Half} (hx : x.toInt = 0) : i16ToF32 x = 0x00000000#32 := if_pos hx

theorem i16ToF32_toNat {x : Half} {p : Nat} (h : topBitAt x p) :
    (i16ToF32 x).toNat =
      (if x.toInt < 0 then 1 else 0) * 2 ^ 31 + (p + 127) * 2 ^ 23 + (x.toInt.natAbs - 2 ^ p) * 2 ^ (23 - p) := by
  have hp := topBitAt_le h
  have hfrac := fraction_lt (hp.trans (by decide)) h.2
  have hrest : x.toInt.natAbs - 2 ^ p < 2 ^ 32 := (Nat.sub_le _ _).trans_lt ((natAbs_toInt_le x).trans_lt (by decide))
  have hs : (if x.toInt < 0 then 1#32 else 0#32 : Word).toNat = if x.toInt < 0 then 1 else 0 := by
    split <;> rfl
  have he : (BitVec.ofNat 32 (p + 127)).toNat = p + 127 := by
    rw [BitVec.toNat_ofNat]
    omega
  have hf : (BitVec.ofNat 32 (x.toInt.natAbs - 2 ^ p) <<< (23 - p)).toNat =
      (x.toInt.natAbs - 2 ^ p) * 2 ^ (23 - p) := by
    rw [BitVec.toNat_shiftLeft, BitVec.toNat_ofNat, Nat.mod_eq_of_lt hrest, Nat.shiftLeft_eq,
      Nat.mod_eq_of_lt (hfrac.trans (by decide))]
  simp only [i16ToF32, if_neg (toInt_ne_zero_of_topBitAt h), highestBit_of_topBitAt h]
  rw [magnitude, toNat_packed_fields (by rw [hs]; split <;> decide) (by omega) (hf ▸ hfrac), hs, he, hf]

/-- The sign bit of a result is the sign (R123). -/
theorem signField_i16ToF32 {x : Half} {p : Nat} (h : topBitAt x p) :
    (i16ToF32 x).getLsbD 31 = decide (x.toInt < 0) := by
  have hp := topBitAt_le h
  have hfrac := fraction_lt (hp.trans (by decide)) h.2
  rw [← BitVec.testBit_toNat, Nat.testBit_eq_decide_div_mod_eq, i16ToF32_toNat h, decide_eq_decide]
  split <;> omega

/-- The exponent field of a result is `p + 127` (R123). -/
theorem exponentField_i16ToF32 {x : Half} {p : Nat} (h : topBitAt x p) :
    ((i16ToF32 x).extractLsb' 23 8).toNat = p + 127 := by
  have hp := topBitAt_le h
  have hfrac := fraction_lt (hp.trans (by decide)) h.2
  rw [BitVec.extractLsb'_toNat, Nat.shiftRight_eq_div_pow, i16ToF32_toNat h]
  omega

/-- The fraction field of a result is the magnitude without its highest bit, moved up to bit 22 (R123). -/
theorem fractionField_i16ToF32 {x : Half} {p : Nat} (h : topBitAt x p) :
    ((i16ToF32 x).extractLsb' 0 23).toNat = (x.toInt.natAbs - 2 ^ p) * 2 ^ (23 - p) := by
  have hfrac := fraction_lt ((topBitAt_le h).trans (by decide)) h.2
  rw [BitVec.extractLsb'_toNat, Nat.shiftRight_zero, i16ToF32_toNat h]
  omega

/-- Settles O14: the fields of a non-zero result by the three lemmas above. -/
theorem converterBits : Obligations.ConverterBits := by
  refine ⟨fun _ _ => rfl, fun _ => i16ToF32_of_toInt_eq_zero, fun x p hlo hhi => ?_, ?_⟩
  · have h : topBitAt x p := ⟨hlo, hhi⟩
    exact ⟨signField_i16ToF32 h, exponentField_i16ToF32 h, fractionField_i16ToF32 h⟩
  · decide

/-! ### The value of a result -/

/-- `|v|` from its highest bit and the fraction built from the rest: no rounding. -/
theorem scaled_significand {m p : Nat} (hp : p ≤ 23) (hm : 2 ^ p ≤ m) :
    (2 : ℚ) ^ p * (1 + (((m - 2 ^ p) * 2 ^ (23 - p) : Nat) : ℚ) / 2 ^ 23) = m := by
  have h23 : (2 : ℚ) ^ 23 = 2 ^ p * 2 ^ (23 - p) := by rw [← pow_add, Nat.add_sub_cancel' hp]
  rw [h23]
  push_cast [hm]
  field_simp
  ring

/-- The sign and the magnitude make the number. -/
theorem sign_mul_natAbs (v : ℤ) : (if decide (v < 0) then -1 else 1 : ℚ) * (v.natAbs : ℚ) = v := by
  rcases lt_or_ge v 0 with hv | hv
  · rw [Nat.cast_natAbs, abs_of_neg hv]
    simp [hv]
  · rw [Nat.cast_natAbs, abs_of_nonneg hv]
    simp [hv.not_gt]

theorem binary32Value_i16ToF32_of_topBitAt {x : Half} {p : Nat} (h : topBitAt x p) :
    binary32Value (i16ToF32 x) = some (x.toInt : ℚ) := by
  have hp := topBitAt_le h
  have hscale : (2 : ℚ) ^ (((p + 127 : Nat) : ℤ) - 127) = 2 ^ p := by
    rw [Nat.cast_add, Nat.cast_ofNat, add_sub_cancel_right, zpow_natCast]
  simp only [binary32Value, signField_i16ToF32 h, exponentField_i16ToF32 h, fractionField_i16ToF32 h]
  rw [if_neg (by omega), if_pos (by omega), hscale, mul_assoc, scaled_significand (hp.trans (by decide)) h.1,
    sign_mul_natAbs]

/-- Settles O15: zero is zero; otherwise the value is read off the three fields. -/
theorem converterIsExact : Obligations.ConverterIsExact := by
  intro x
  by_cases hx : x.toInt = 0
  · rw [i16ToF32_of_toInt_eq_zero hx, hx]
    rfl
  · obtain ⟨p, h⟩ := exists_topBitAt hx
    exact binary32Value_i16ToF32_of_topBitAt h

/-- Settles O16: by exactness the value of a result is the input, so equal results have equal inputs and the two orders are
one. -/
theorem converterInjectiveAndOrdered : Obligations.ConverterInjectiveAndOrdered := by
  refine ⟨fun x y hxy => ?_, fun x y p q hp hq => ?_⟩
  · have hv : some (x.toInt : ℚ) = some (y.toInt : ℚ) := by
      rw [← converterIsExact x, ← converterIsExact y, hxy]
    exact BitVec.toInt_inj.mp (Int.cast_injective (Option.some.inj hv))
  · rw [converterIsExact] at hp hq
    cases hp
    cases hq
    exact Int.cast_lt.symm

/-! ### The shape of the results -/

/-- Negation keeps the magnitude and its highest bit (`0x8000` apart, whose negation is itself). -/
theorem topBitAt_neg {x : Half} {p : Nat} (hmin : x ≠ 0x8000#16) (h : topBitAt x p) : topBitAt (-x) p := by
  unfold topBitAt
  rwa [BitVec.toInt_neg_of_ne_intMin hmin, Int.natAbs_neg]

theorem i16ToF32_neg {x : Half} (h0 : x.toInt ≠ 0) (hmin : x ≠ 0x8000#16) :
    i16ToF32 (-x) = i16ToF32 x ^^^ 0x80000000#32 := by
  obtain ⟨p, h⟩ := exists_topBitAt h0
  have hneg := topBitAt_neg hmin h
  have hv : (-x).toInt = -x.toInt := BitVec.toInt_neg_of_ne_intMin hmin
  apply eq_of_fields_eq
  · have hsign : decide (-x.toInt < 0) = !decide (x.toInt < 0) := by
      rw [← decide_not, decide_eq_decide]
      omega
    rw [BitVec.getLsbD_xor, signField_i16ToF32 hneg, signField_i16ToF32 h, hv, hsign]
    exact (Bool.xor_true _).symm
  · rw [BitVec.extractLsb'_xor, show (0x80000000#32).extractLsb' 23 8 = 0#8 by decide, BitVec.xor_zero,
      exponentField_i16ToF32 hneg, exponentField_i16ToF32 h]
  · rw [BitVec.extractLsb'_xor, show (0x80000000#32).extractLsb' 0 23 = 0#23 by decide, BitVec.xor_zero,
      fractionField_i16ToF32 hneg, fractionField_i16ToF32 h, hv, Int.natAbs_neg]

/-- R124 (e), for a magnitude below 32768. -/
theorem resultShape_of_topBitAt {x : Half} {p : Nat} (h : topBitAt x p) (hp : p ≤ 14) :
    127 ≤ ((i16ToF32 x).extractLsb' 23 8).toNat ∧ ((i16ToF32 x).extractLsb' 23 8).toNat ≤ 141 ∧
      ((i16ToF32 x).extractLsb' 0 23).toNat % 2 ^ (23 - (((i16ToF32 x).extractLsb' 23 8).toNat - 127)) = 0 := by
  rw [exponentField_i16ToF32 h, fractionField_i16ToF32 h, Nat.add_sub_cancel]
  exact ⟨Nat.le_add_left _ _, by omega, Nat.mul_mod_left _ _⟩

/-- No result is -0: the only result without an exponent is that of zero (R124 (e)). -/
theorem i16ToF32_ne_negativeZero (x : Half) : i16ToF32 x ≠ 0x80000000#32 := by
  intro hr
  by_cases hx : x.toInt = 0
  · rw [i16ToF32_of_toInt_eq_zero hx] at hr
    exact absurd hr (by decide)
  · obtain ⟨p, h⟩ := exists_topBitAt hx
    have he := exponentField_i16ToF32 h
    rw [hr, show ((0x80000000#32).extractLsb' 23 8).toNat = 0 by decide] at he
    omega

/-- The fraction is moved up by at least 8 places (R124 (f)). -/
theorem lowByte_i16ToF32 (x : Half) : (i16ToF32 x).extractLsb' 0 8 = 0x00#8 := by
  by_cases hx : x.toInt = 0
  · rw [i16ToF32_of_toInt_eq_zero hx]
    rfl
  · obtain ⟨p, h⟩ := exists_topBitAt hx
    have hp := topBitAt_le h
    have hdvd : 2 ^ 8 ∣ (x.toInt.natAbs - 2 ^ p) * 2 ^ (23 - p) :=
      (Nat.pow_dvd_pow 2 (by omega)).mul_left _
    apply BitVec.eq_of_toNat_eq
    rw [BitVec.extractLsb'_toNat, Nat.shiftRight_zero, i16ToF32_toNat h]
    change _ = 0
    omega

/-- Settles O17: each clause by its lemma above; `0x8000` alone has its highest bit at position 15. -/
theorem converterResultShape : Obligations.ConverterResultShape := by
  refine ⟨fun x h0 hmin => i16ToF32_neg (fun hx => h0 (BitVec.toInt_inj.mp hx)) hmin, fun x => ?_,
    i16ToF32_ne_negativeZero, lowByte_i16ToF32⟩
  by_cases hx : x.toInt = 0
  · exact .inl (i16ToF32_of_toInt_eq_zero hx)
  · obtain ⟨p, h⟩ := exists_topBitAt hx
    rcases (topBitAt_le h).lt_or_eq with hp | rfl
    · exact .inr (.inl (resultShape_of_topBitAt h (Nat.le_of_lt_succ hp)))
    · rw [eq_intMin_of_topBitAt_fifteen h]
      exact .inr (.inr (by decide))

end Sys2Proof.Proofs.Converter
end

section
/-! PROOF. 42_host_access.md: what each single access of the host does (O4, O7 to O9, O13), and the composite "run one
command" of R146 (O54 to O56). `run_issue_wait` says once what the `CMD` write and the `WAIT` lead to where the calls of
the command are all answered between them; reads, writes and failing commands differ in what comes before and after. -/

namespace Sys2Proof.Proofs.HostAccess

open Sys2Proof.Machine Sys2Proof.Proofs.ControlState Sys2Proof.Proofs.Encoding Sys2Proof.Proofs.FramerCommands

/-! ### The single accesses -/

/-- Settles O4: `RDS` is a read of register `0x01`. -/
theorem statusReadChangesNothing : Obligations.StatusReadChangesNothing := by
  intro s rest hq
  rw [step_host hq, hostStep_rds]
  rfl

/-- `WRD` in `IDLE` (R140). -/
theorem step_wrd {s : State} {i : Fin Config.nmax} {v : Byte} {rest : List Input} (hp : s.phase = .idle)
    (hq : s.inputs = .host (wrd i v) :: rest) :
    step s = .next { s with inputs := rest, d := setData s.d i.val v } := by
  rw [step_host hq, hostStep_wrd, writeData, setInputs_phase, if_pos hp]
  rfl

/-- Settles O7: in `IDLE` by `step_wrd`, otherwise as any write of a busy block. -/
theorem hostWritesDataRegister : Obligations.HostWritesDataRegister := by
  intro s i v rest hq
  refine ⟨fun hp => ⟨_, step_wrd hp hq, rfl, ?_, fun j hj => ?_⟩, fun hb => ?_⟩
  · exact Vector.getElem_setIfInBounds_self i.isLt
  · exact Vector.getElem_setIfInBounds_ne j.isLt fun h => hj (Fin.ext h.symm)
  · obtain ⟨-, hwrd, -⟩ := busyBlockDropsHostWrites s rest hb
    exact hwrd i v hq

/-- What an `RDD` of an idle block gives the host (R141). -/
def dataResult (d : Vector Byte Config.nmax) (i : Fin Config.nmax) : HostResult :=
  .value (dataRegister i) (d[i].setWidth 16)

/-- `RDD` in `IDLE` (R141). -/
theorem step_rdd {s : State} {i : Fin Config.nmax} {rest : List Input} (hp : s.phase = .idle)
    (hq : s.inputs = .host (rdd i) :: rest) :
    step s = .next { s with inputs := rest, hostLog := s.hostLog ++ [dataResult s.d i] } := by
  rw [step_host hq, hostStep_rdd, readData, dataValue, setInputs_phase, if_pos hp, if_pos hp, setInputs_d,
    dataAt_of_lt s.d i.isLt]
  rfl

/-- Settles O8: in `IDLE` by `step_rdd`, otherwise as any read of a data register of a busy block. -/
theorem hostReadsDataRegister : Obligations.HostReadsDataRegister := by
  intro s i rest hq
  refine ⟨fun hp => step_rdd hp hq, fun hb => ?_⟩
  obtain ⟨-, -, hrdd, -⟩ := busyBlockDropsHostWrites s rest hb
  exact hrdd i hq

/-- The register numbers R20 does not name. -/
theorem hostRegister_reserved {reg : BitVec 8} (hcmd : reg ≠ 0x00#8) (hstatus : reg ≠ 0x01#8)
    (hdata : ¬(0x10 ≤ reg.toNat ∧ reg.toNat < 0x10 + Config.nmax)) : hostRegister reg = .reserved := by
  rw [hostRegister, if_neg hcmd, if_neg hstatus]
  split
  next h => exact if_neg fun hle => hdata ⟨hle, by omega⟩
  next => rfl

/-- Settles O9: both accesses go by `hostRegister_reserved`. -/
theorem reservedRegistersReadZero : Obligations.ReservedRegistersReadZero := by
  intro s reg rest hcmd hstatus hdata
  have hreg := hostRegister_reserved hcmd hstatus hdata
  refine ⟨fun hq => ?_, fun v hq => ?_⟩
  · rw [step_host hq, hostStep, readRegister, hreg]
    rfl
  · rw [step_host hq, hostStep, writeRegister, hreg]
    rfl

/-- Settles O13: the converter input is decoded as `CVT` at its port, and `CVT` only adds to the host's log. -/
theorem converterWorksInAnyPhase : Obligations.ConverterWorksInAnyPhase := by
  intro s x
  refine ⟨rfl, fun rest hq => ?_⟩
  rw [step_host hq, hostStep, presentConverter]
  rfl

/-! ### Runs of several operations -/

theorem run_add {s u : State} {k : Nat} (m : Nat) (h : Host.Core.run core k s = .next u) :
    Host.Core.run core (k + m) s = Host.Core.run core m u := by
  induction k generalizing s with
  | zero => cases h; rw [Nat.zero_add]
  | succ k ih =>
    cases hs : step s with
    | next v => rw [Nat.succ_add, run_succ _ hs, ih ((run_succ k hs).symm.trans h)]
    | fault r => cases r
    | refused r => simp [Host.Core.run, core, hs] at h

/-- Several `RDD` in `IDLE`, one step each. -/
theorem run_rdds (regs : List (Fin Config.nmax)) {s : State} {rest : List Input} (hp : s.phase = .idle)
    (hq : s.inputs = (regs.map rdd).map .host ++ rest) :
    Host.Core.run core regs.length s =
      .next { s with inputs := rest, hostLog := s.hostLog ++ regs.map (dataResult s.d) } := by
  induction regs generalizing s with
  | nil =>
    rw [List.map_nil, List.append_nil]
    exact congrArg Host.Outcome.next (setInputs_same hq).symm
  | cons i regs ih =>
    have hrest := ih (s := { s with inputs := _, hostLog := s.hostLog ++ [dataResult s.d i] }) hp rfl
    rw [List.append_assoc] at hrest
    exact (run_succ regs.length (step_rdd hp hq)).trans hrest

/-- The register write of one payload byte, with the byte's place in `D` (R146). -/
def payloadWrite (p : Byte × Nat) : HostOp := .write (BitVec.ofNat 8 (0x10 + p.2)) (p.1.setWidth 16)

theorem payloadWrites_eq (payload : List Byte) : payloadWrites payload = payload.zipIdx.map payloadWrite := rfl

theorem length_payloadWrites (payload : List Byte) : (payloadWrites payload).length = payload.length := by
  simp [payloadWrites_eq]

theorem payloadWrites_getElem? (payload : List Byte) (j : Fin Config.nmax) :
    (payloadWrites payload)[j.val]? = payload[j.val]?.map (wrd j) := by
  rw [payloadWrites_eq, List.getElem?_map, List.getElem?_zipIdx, Option.map_map, Nat.zero_add]
  rfl

/-- The payload is written to `D` from `D[k]` on, one step for each byte. -/
theorem run_payloadWrites_from (payload : List Byte) (k : Nat) (hk : k + payload.length ≤ Config.nmax) {s : State}
    {rest : List Input} (hp : s.phase = .idle)
    (hq : s.inputs = ((payload.zipIdx k).map payloadWrite).map .host ++ rest) :
    ∃ d, Host.Core.run core payload.length s = .next { s with inputs := rest, d := d } ∧
      (∀ j, j < k → dataAt d j = dataAt s.d j) ∧ ∀ j (hj : j < payload.length), dataAt d (k + j) = payload[j] := by
  induction payload generalizing k s with
  | nil =>
    exact ⟨s.d, congrArg Host.Outcome.next (setInputs_same hq).symm, fun _ _ => rfl,
      fun j hj => absurd hj (Nat.not_lt_zero j)⟩
  | cons v payload ih =>
    rw [List.length_cons] at hk
    have hlt : k < Config.nmax := by omega
    have hstep := step_wrd (i := ⟨k, hlt⟩) hp hq
    obtain ⟨d, hrun, hbelow, hat⟩ :=
      ih (k + 1) (by omega) (s := { s with inputs := _, d := setData s.d k v }) hp rfl
    refine ⟨d, (run_succ payload.length hstep).trans hrun, fun j hj => ?_, fun j hj => ?_⟩
    · rw [hbelow j (by omega), dataAt_setData_ne s.d v (by omega)]
    · cases j with
      | zero => rw [Nat.add_zero, hbelow k (by omega), dataAt_setData, if_pos ⟨rfl, hlt⟩, List.getElem_cons_zero]
      | succ j =>
        rw [List.getElem_cons_succ, ← hat j (Nat.lt_of_succ_lt_succ hj)]
        congr 1
        omega

/-- After `WRD 0, p0` to `WRD N-1, p(N-1)` in `IDLE` the payload stands in `D[0..N-1]` (R140, R146). -/
theorem run_payloadWrites (payload : List Byte) (hlen : payload.length ≤ Config.nmax) {s : State} {rest : List Input}
    (hp : s.phase = .idle) (hq : s.inputs = (payloadWrites payload).map .host ++ rest) :
    ∃ d, Host.Core.run core payload.length s = .next { s with inputs := rest, d := d } ∧
      (List.range payload.length).map (dataAt d) = payload := by
  obtain ⟨d, hrun, -, hat⟩ := run_payloadWrites_from payload 0 (by omega) hp hq
  refine ⟨d, hrun, List.ext_getElem (by simp) fun j _ hj => ?_⟩
  simpa using hat j hj

/-! ### What the host reads and what it takes from it -/

/-- The outcome is read from the value of the `RDS` just done (R146, R24). -/
theorem readOutcome_append_status (log : List HostResult) (status : Byte) :
    readOutcome (log ++ [.value 0x01#8 (status.setWidth 16)]) = outcome status := by
  simp [readOutcome]

/-- On the outcome `Ok` the host goes on to read the response (R146). -/
theorem readResponse_of_ok (n : Nat) {s : State} (h : readOutcome s.hostLog = some .ok) :
    readResponse n s = hostContinues (responseReads n) s := by
  obtain ⟨-, e⟩ | ⟨hne, -⟩ := readResponse_cases n s
  · exact e
  · exact absurd h hne

/-- On every other outcome it reads no data (R146). -/
theorem readResponse_of_not_ok (n : Nat) {s : State} (h : readOutcome s.hostLog ≠ some .ok) : readResponse n s = s := by
  obtain ⟨hok, -⟩ | ⟨-, e⟩ := readResponse_cases n s
  · exact absurd hok h
  · exact e

theorem dataRegister_ne_status (i : Fin Config.nmax) : dataRegister i ≠ 0x01#8 := by
  intro h
  have hreg := hostRegister_dataRegister i
  rw [h, hostRegister_status] at hreg
  cases hreg

/-- Reads of data registers after an `RDS` leave its value the last one. -/
theorem sinceStatus_append_dataResults (d : Vector Byte Config.nmax) (regs : List (Fin Config.nmax)) {status : Byte}
    {log later : List HostResult} (h : sinceStatus log = some (status, later)) :
    sinceStatus (log ++ regs.map (dataResult d)) = some (status, later ++ regs.map (dataResult d)) := by
  induction regs generalizing log later with
  | nil => simpa using h
  | cons i regs ih =>
    have hnext := sinceStatus_append_value h (d[i].setWidth 16) (dataRegister_ne_status i)
    simpa [dataResult] using ih hnext

theorem dataBytes_dataResults (d : Vector Byte Config.nmax) (regs : List (Fin Config.nmax)) :
    dataBytes (regs.map (dataResult d)) = regs.map (d[·]) := by
  induction regs with
  | nil => rfl
  | cons i regs ih => simpa [dataResult, dataBytes] using ih

theorem sinceStatus_status (status : Byte) :
    sinceStatus [.value 0x01#8 (status.setWidth 16)] = some (status, []) := by
  simp [sinceStatus]

/-- On `Ok` the result is the success value with the bytes read after the `RDS`, as many as it has (R146). -/
theorem transportResult_ok {i : Instr} (d : Vector Byte Config.nmax) {regs : List (Fin Config.nmax)} {status : Byte}
    (hok : outcome status = some .ok) (hlen : regs.length = responseCount i) :
    transportResult i ([.value 0x01#8 (status.setWidth 16)] ++ regs.map (dataResult d)) =
      some (.ok (regs.map (d[·]))) := by
  have hsince := sinceStatus_append_dataResults d regs (sinceStatus_status status)
  simp only [transportResult, hsince, hok, List.nil_append, dataBytes_dataResults]
  simp [← hlen]

/-- The outcome that an error kind of the document's Transport stands for (R24, R146). -/
def errorOutcome : TransportError → CommandOutcome
  | .transferFailed => .transferFailed
  | .chipSelectFailed => .chipSelectFailed

/-- On an error outcome the result is the error kind, whatever the command (R146). -/
theorem transportResult_error (i : Instr) {status : Byte} {e : TransportError}
    (h : outcome status = some (errorOutcome e)) :
    transportResult i [.value 0x01#8 (status.setWidth 16)] = some (.error e) := by
  rw [transportResult, sinceStatus_status]
  cases e <;> simp [h, errorOutcome]

/-- There is an outcome only when `DONE` = 1 (R24). -/
theorem done_of_outcome {s : State} {o : CommandOutcome} (h : outcome (statusByte s) = some o) : s.done = true := by
  by_contra hd
  rw [outcome_statusByte, if_neg hd] at h
  cases h

/-! ### The `CMD` write and the `WAIT` -/

/-- The last turn of `WAIT` reads `STATUS` (R71). -/
theorem step_wait_done {s : State} {rest : List Input} (hd : s.done = true) (hq : s.inputs = .host .wait :: rest) :
    step s = .next (readStatus (setInputs rest s)) := by
  rw [step_host hq, hostStep, waitTurn, setInputs_done, if_pos hd]

/-- Where the transaction of a command ends before the `WAIT` after it, the two are two steps: the transaction, and an
`RDS` that gives the host its `STATUS`. -/
theorem run_issue_wait {s u : State} {op : Op} {addr : BitVec 7} {n : BitVec 5} {events : List TraceEvent}
    {status : Byte} {line : Line} {q rest : List Input} {o : CommandOutcome} (hl : legalFields op addr n = true)
    (hq : s.inputs = .host (issue (Instr.command op addr n)) :: q)
    (hexec : exec (Instr.command op addr n) (setInputs q s) = .next u)
    (hends : endsTransaction (setInputs q s) u op addr n events status line (.host .wait :: rest))
    (ho : outcome status = some o) :
    Host.Core.run core 2 s =
      .next { u with inputs := rest, hostLog := s.hostLog ++ [.value 0x01#8 (status.setWidth 16)] } := by
  obtain ⟨-, -, hstatus, -, -, -, -, -, hnext, hlog, -⟩ := hends
  have hissue : step s = .next u := by
    rw [step_host hq, issue, hostStep_present (decodeOfEncode _ (by rwa [wellFormed_command])), hexec]
  have hwait := step_wait_done (done_of_outcome (s := u) (hstatus ▸ ho)) hnext
  rw [run_succ 1 hissue, run_succ 0 hwait, ← hstatus, ← show u.hostLog = s.hostLog from hlog]
  rfl

/-- The bytes sent in exchanges that were all answered. -/
theorem sentBytes_exchanges {tx rx : List Byte} (h : tx.length = rx.length) : sentBytes (exchanges tx rx) = tx := by
  induction tx generalizing rx with
  | nil => rfl
  | cons b tx ih =>
    cases rx with
    | nil => cases h
    | cons r rx => exact congrArg (b :: ·) (ih (Nat.succ.inj h))

theorem length_frame (op : Op) (addr : BitVec 7) (n : BitVec 5) (d : Vector Byte Config.nmax) :
    (frame op addr n d).length = frameLength op n := by
  simp [frame]

/-- The `CMD` write and the `WAIT` of a command whose calls are all answered `ok` between them: the host has read
`STATUS` 0x02, the frame was sent and the response is in `D` (R146, R97). -/
theorem run_answered_command {s : State} {op : Op} {addr : BitVec 7} {n : BitVec 5} {a0 a1 : Byte} {rx : List Byte}
    {rest : List Input} (hp : s.phase = .idle) (hl : legalFields op addr n = true) (hrx : rx.length = frameLength op n)
    (hq : s.inputs = .host (issue (Instr.command op addr n)) :: okAnswer a0 :: (rx.map okAnswer ++
      okAnswer a1 :: .host .wait :: rest)) :
    ∃ t : State, Host.Core.run core 2 s = .next t ∧ t.inputs = rest ∧ t.phase = .idle ∧
      t.hostLog = s.hostLog ++ [.value 0x01#8 ((0x02#8).setWidth 16)] ∧
      sentBytes t.trace = sentBytes s.trace ++ frame op addr n s.d ∧ responseStored t (headerLength op) n.toNat rx := by
  set q := okAnswer a0 :: (rx.map okAnswer ++ okAnswer a1 :: .host .wait :: rest)
  obtain ⟨u, hexec, hends, hstored, -⟩ :=
    transactionWithAllBytesExchanged (setInputs q s) op addr n a0 (.ok a1) rx (.host .wait :: rest) hp hl hrx rfl
  simp only [Answer.isOk, if_true] at hends
  refine ⟨_, run_issue_wait (o := .ok) hl hq hexec hends rfl, rfl, ?_⟩
  obtain ⟨hphase, -, -, -, -, -, htrace, -⟩ := hends
  refine ⟨hphase, rfl, ?_, hstored⟩
  rw [htrace, sentBytes_append, setInputs_trace]
  have hsent : sentBytes (exchanges (frame op addr n s.d) rx) = frame op addr n s.d :=
    sentBytes_exchanges (by rw [length_frame, hrx])
  rw [← hsent]
  simp [sentBytes, callsOf, Call.byte, List.filterMap_cons]

theorem answerInputs_ok_cons (a0 : Byte) (rx : List Byte) (more : List Answer) (q : List Input) :
    answerInputs (.ok a0 :: (rx.map .ok ++ more)) ++ q =
      okAnswer a0 :: (rx.map okAnswer ++ (answerInputs more ++ q)) := by
  simp [answerInputs, okAnswer, Function.comp_def]

/-- The transaction of a command that fails ends with the outcome of its error kind (R97, R24). -/
theorem exec_failed_command {s : State} {op : Op} {addr : BitVec 7} {n : BitVec 5} {answers : List Answer}
    {e : TransportError} {rest : List Input} (hp : s.phase = .idle) (hl : legalFields op addr n = true)
    (hfails : failsWith op n answers e) (hq : s.inputs = answerInputs answers ++ rest) :
    ∃ t events status line, exec (Instr.command op addr n) s = .next t ∧
      endsTransaction s t op addr n events status line rest ∧ outcome status = some (errorOutcome e) := by
  obtain ⟨last, rfl, rfl⟩ | ⟨a0, rx, last, hrx, rfl, rfl⟩ | ⟨a0, rx, hrx, rfl, rfl⟩ := hfails
  · obtain ⟨t, hexec, hends, -⟩ := transactionWithFailedAssert s op addr n last rest hp hl hq
    exact ⟨t, _, _, _, hexec, hends, rfl⟩
  · rw [answerInputs_ok_cons] at hq
    obtain ⟨t, hexec, hends⟩ := transactionWithFailedExchange s op addr n a0 last rx rest hp hl hrx hq
    refine ⟨t, _, _, _, hexec, hends, ?_⟩
    split <;> rfl
  · rw [answerInputs_ok_cons] at hq
    obtain ⟨t, hexec, hends, -⟩ := transactionWithAllBytesExchanged s op addr n a0 .err rx rest hp hl hrx hq
    exact ⟨t, _, _, _, hexec, hends, rfl⟩

/-- The `CMD` write and the `WAIT` of a command that fails between them: the host has read `STATUS` with the outcome of
the error kind (R146, R97, R24). -/
theorem run_failed_command {s : State} {op : Op} {addr : BitVec 7} {n : BitVec 5} {answers : List Answer}
    {e : TransportError} {rest : List Input} (hp : s.phase = .idle) (hl : legalFields op addr n = true)
    (hfails : failsWith op n answers e)
    (hq : s.inputs = .host (issue (Instr.command op addr n)) :: (answerInputs answers ++ .host .wait :: rest)) :
    ∃ (t : State) (status : Byte), Host.Core.run core 2 s = .next t ∧ t.inputs = rest ∧ t.phase = .idle ∧
      t.hostLog = s.hostLog ++ [.value 0x01#8 (status.setWidth 16)] ∧ outcome status = some (errorOutcome e) := by
  obtain ⟨u, events, status, line, hexec, hends, ho⟩ := 
    exec_failed_command (s := setInputs (answerInputs answers ++ .host .wait :: rest) s) hp hl hfails rfl
  have hrun := run_issue_wait hl hq hexec hends ho
  obtain ⟨hphase, -⟩ := hends
  exact ⟨_, status, hrun, rfl, hphase, rfl, ho⟩

/-! ### "Run one command" -/

theorem responseCount_read {op : Op} (h : op.isRead = true) (addr : BitVec 7) (n : BitVec 5) :
    responseCount (Instr.command op addr n) = n.toNat := by
  cases op with
  | imuWr => cases h
  | imuRd => rfl
  | tpWr => cases h
  | tpRd => rfl

theorem responseCount_write {op : Op} (h : op.isRead = false) (addr : BitVec 7) (n : BitVec 5) :
    responseCount (Instr.command op addr n) = 0 := by
  cases op with
  | imuWr => rfl
  | imuRd => cases h
  | tpWr => rfl
  | tpRd => cases h

theorem transportProgram_read {op : Op} {addr : BitVec 7} {n : BitVec 5} (h : op.isRead = true)
    (hl : legalFields op addr n = true) :
    transportProgram (Instr.command op addr n) [] = some (readProgram (Instr.command op addr n) n) := by
  cases op with
  | imuWr => cases h
  | imuRd => exact if_pos ⟨hl, rfl⟩
  | tpWr => cases h
  | tpRd => exact if_pos ⟨hl, rfl⟩

theorem transportProgram_write {op : Op} {addr : BitVec 7} {n : BitVec 5} {payload : List Byte} (h : op.isRead = false)
    (hl : legalFields op addr n = true) (hlen : payload.length = n.toNat) :
    transportProgram (Instr.command op addr n) payload = some (writeProgram (Instr.command op addr n) payload) := by
  cases op with
  | imuWr => exact if_pos ⟨hl, hlen⟩
  | imuRd => cases h
  | tpWr => exact if_pos ⟨hl, hlen⟩
  | tpRd => cases h

/-- The frame of a write is byte 0 and then `D[0..N-1]` (R66). -/
theorem frame_write {op : Op} {addr : BitVec 7} {n : BitVec 5} (h : op.isRead = false)
    (hl : legalFields op addr n = true) (d : Vector Byte Config.nmax) :
    frame op addr n d = byte0 op addr :: (List.range n.toNat).map (dataAt d) := by
  cases op with
  | imuWr => exact frame_imuWr addr n d
  | imuRd => cases h
  | tpWr => rw [frame_tpWr, legalFields_tpWr hl]; rfl
  | tpRd => cases h

/-- The registers that `RDD 0` to `RDD N-1` read (R146). -/
def responseRegisters (n : Nat) : List (Fin Config.nmax) := (List.finRange Config.nmax).take n

theorem responseReads_eq (n : Nat) : responseReads n = (responseRegisters n).map rdd := rfl

theorem length_responseRegisters {n : Nat} (h : n ≤ Config.nmax) : (responseRegisters n).length = n := by
  simpa [responseRegisters] using h

/-- The conditional reads of R146 on the outcome `Ok`: the step that decides for them, and one for each. -/
theorem run_readResponse {n : Nat} {s : State} {rest : List Input} (hn : n ≤ Config.nmax) (hp : s.phase = .idle)
    (hok : readOutcome s.hostLog = some .ok) (hq : s.inputs = .host (.readResponse n) :: rest) :
    Host.Core.run core (n + 1) s = .next { s with
      inputs := rest, hostLog := s.hostLog ++ (responseRegisters n).map (dataResult s.d) } := by
  have hfirst : step s = .next (hostContinues ((responseRegisters n).map rdd) (setInputs rest s)) := by
    rw [step_host hq, hostStep, readResponse_of_ok n (s := setInputs rest s) hok, responseReads_eq]
  have hreads := run_rdds (responseRegisters n)
    (s := hostContinues ((responseRegisters n).map rdd) (setInputs rest s)) hp rfl
  rw [length_responseRegisters hn] at hreads
  exact (run_succ n hfirst).trans hreads

/-- The bytes read from them are those the transaction stored. -/
theorem responseRegisters_map_data {t : State} {hdr n : Nat} {rx : List Byte} (hn : n ≤ Config.nmax)
    (hrx : rx.length = hdr + n) (h : responseStored t hdr n rx) : (responseRegisters n).map (t.d[·]) = rx.drop hdr := by
  refine List.ext_getElem (by simp [length_responseRegisters hn, hrx]) fun j hj hj' => ?_
  have hjn : j < n := by simpa [length_responseRegisters hn] using hj
  have hstored := h j hjn
  rw [dataAt_of_lt t.d (by omega), List.getElem?_eq_getElem (by omega)] at hstored
  simpa [responseRegisters] using (Option.some.inj hstored).symm

/-- Settles O54: after the `RDS` of the `WAIT` the outcome is `Ok`, so the third step puts the reads before what is to
come; they give the host the bytes that the transaction stored. -/
theorem runOneCommandReads : Obligations.RunOneCommandReads := by
  intro s op addr n a0 a1 rx rest hp hop hl hrx hq
  refine ⟨transportProgram_read hop hl, ?_⟩
  obtain ⟨-, hmax⟩ := legalFields_count hl
  obtain ⟨u, hrun, hu, hphase, hlog, -, hstored⟩ := run_answered_command hp hl hrx hq
  have hok : outcome 0x02#8 = some .ok := rfl
  have hread : readOutcome u.hostLog = some .ok := by rw [hlog, readOutcome_append_status, hok]
  have hruns := (run_add (n.toNat + 1) hrun).trans (run_readResponse hmax hphase hread hu)
  rw [show 2 + (n.toNat + 1) = n.toNat + 3 by omega] at hruns
  refine ⟨_, [.value 0x01#8 ((0x02#8).setWidth 16)] ++ (responseRegisters n.toNat).map (dataResult u.d), hruns, rfl,
    hphase, ?_, ?_⟩
  · rw [← List.append_assoc, ← hlog]
  · rw [transportResult_ok u.d hok ((length_responseRegisters hmax).trans (responseCount_read hop addr n).symm),
      responseRegisters_map_data hmax (hrx.trans (frameLength_eq hl)) hstored]

/-- Settles O55: the `WRD`s put the payload into `D`, and the frame sends it from there. -/
theorem runOneCommandWrites : Obligations.RunOneCommandWrites := by
  intro s op addr n payload a0 a1 rx rest hp hwrite hl hlen hrx hq
  refine ⟨transportProgram_write hwrite hl hlen, (length_payloadWrites payload).trans hlen,
    payloadWrites_getElem? payload, ?_⟩
  obtain ⟨-, hmax⟩ := legalFields_count hl
  obtain ⟨d, hwrites, hd⟩ := run_payloadWrites payload (hlen ▸ hmax) hp hq
  obtain ⟨t, hrun, ht, hphase, hlog, hsent, -⟩ :=
    run_answered_command (s := { s with inputs := _, d := d }) hp hl hrx rfl
  refine ⟨t, _, hlen ▸ (run_add 2 hwrites).trans hrun, ht, hphase, hlog, ?_, ?_⟩
  · rw [hsent, frame_write hwrite hl, ← hlen, hd]
  · exact transportResult_ok d (regs := []) rfl (responseCount_write hwrite addr n).symm

/-- Settles O56: `run_failed_command` for both. Before it a write does its `WRD`s; after it the outcome, not `Ok`,
lets a read do no `RDD`. -/
theorem runOneCommandFails : Obligations.RunOneCommandFails := by
  refine ⟨fun s op addr n answers e rest hp _ hl hfails hq => ?_,
    fun s op addr n payload answers e rest hp _ hl hlen hfails hq => ?_⟩
  · obtain ⟨u, status, hrun, hu, hphase, hlog, ho⟩ := run_failed_command hp hl hfails hq
    have hne : readOutcome u.hostLog ≠ some .ok := by
      rw [hlog, readOutcome_append_status, ho]
      cases e <;> simp [errorOutcome]
    have hresponse : step u = .next (setInputs rest u) :=
      (step_host hu).trans (congrArg _ (readResponse_of_not_ok n.toNat (s := setInputs rest u) hne))
    exact ⟨_, _, (run_add 1 hrun).trans (run_succ 0 hresponse), rfl, hphase, hlog, transportResult_error _ ho⟩
  · obtain ⟨-, hmax⟩ := legalFields_count hl
    obtain ⟨d, hwrites, -⟩ := run_payloadWrites payload (hlen ▸ hmax) hp hq
    obtain ⟨t, status, hrun, ht, hphase, hlog, ho⟩ :=
      run_failed_command (s := { s with inputs := _, d := d }) hp hl hfails rfl
    exact ⟨t, _, hlen ▸ (run_add 2 hwrites).trans hrun, ht, hphase, hlog, transportResult_error _ ho⟩

end Sys2Proof.Proofs.HostAccess
end

section
/-! PROOF. 60_exceptions.md: an illegal word written to an idle block raises `CmdRejected` (O29), and neither an instruction
nor a step stops the machine (O27). A step answers as the host operation it takes does (`step_host`, `step_env`,
`step_nil`), and a host operation answers as the word it presents does. -/

namespace Sys2Proof.Proofs.Exceptions

open Sys2Proof.Machine Sys2Proof.Proofs.ControlState Sys2Proof.Proofs.Encoding Sys2Proof.Proofs.FramerCommands

/-! ### The rejected word -/

/-- Settles O29: the step is the `CMD` write, which `writeCmd_illegal` turns into a rejection. A rejection starts no
transaction, so what stands behind the write does not matter. -/
theorem illegalWordIsRejected : Obligations.IllegalWordIsRejected := by
  intro s w e rest hp hq he
  rw [step_host hq, hostStep_cmdWrite, writeCmd_illegal he, rejectCommand_eq (s := setInputs rest s) hp]
  rfl

/-! ### The machine goes on -/

/-- An accepted, dropped or rejected command and a conversion all lead to a state (R180, R145). -/
theorem exec_answersNext (i : Instr) (s : State) : ∃ t, exec i s = .next t := by
  obtain ⟨op, addr, n, rfl⟩ | ⟨x, rfl⟩ := command_or_cvt i
  · exact ⟨_, exec_command op addr n s⟩
  · exact ⟨convert x s, rfl⟩

theorem writeCmd_answersNext (w : Half) (s : State) : ∃ t, writeCmd w s = .next t := by
  cases h : decodeAt .cmd w with
  | ok i => rw [writeCmd_legal h]; exact exec_answersNext i s
  | error e => exact ⟨_, writeCmd_illegal h s⟩

theorem writeRegister_answersNext (reg : BitVec 8) (v : Half) (s : State) : ∃ t, writeRegister reg v s = .next t := by
  unfold writeRegister
  split
  · exact writeCmd_answersNext v s
  · exact ⟨_, rfl⟩
  · exact ⟨_, rfl⟩
  · exact ⟨_, rfl⟩

/-- Only the writes and the converter port present a word; every other operation is a plain function of the state. -/
theorem hostStep_answersNext (op : HostOp) (s : State) : ∃ t, hostStep op s = .next t := by
  cases op with
  | write reg v => exact writeRegister_answersNext reg v s
  | read reg => exact ⟨readRegister reg s, rfl⟩
  | convert x => exact exec_answersNext (.cvt x) s
  | convertSample k => exact ⟨convertSample k s, rfl⟩
  | wait => exact ⟨waitTurn s, rfl⟩
  | readResponse n => exact ⟨readResponse n s, rfl⟩
  | motionDecode => exact ⟨decodeMotion s, rfl⟩

/-- With nothing to come the machine stays as it is: a call never answered is a hang (R194). -/
theorem step_answersNext (s : State) : ∃ t, step s = .next t := by
  cases hq : s.inputs with
  | nil => exact ⟨s, step_nil hq⟩
  | cons x rest =>
    cases x with
    | host op => rw [step_host hq]; exact hostStep_answersNext op _
    | env e => exact ⟨_, step_env hq⟩

/-- Settles O27: `exec` by the kind of instruction, the step by what comes next. -/
theorem everyStepAnswersNext : Obligations.EveryStepAnswersNext :=
  ⟨exec_answersNext, step_answersNext⟩

end Sys2Proof.Proofs.Exceptions
end

section
/-! PROOF. 70_reset_and_hazards.md: a `Reset` abandons the transaction, and answers that no call waits for do nothing (O3);
when the platform makes the chip-select line high (O52). Each is a step with an input of environment or platform, so
`step_env` names the operation, and what that operation can do (`resetBlock`'s fields, `discardAnswer_cases`,
`framerStep_idle`, `restoreLine_cases`) gives the rest. -/

namespace Sys2Proof.Proofs.ResetAndHazards

open Sys2Proof.Machine

/-! ### The reset -/

/-- No flag stands after a `Reset`, whatever stood before it (R19, R200). -/
theorem statusByte_resetBlock (s : State) : statusByte (resetBlock s) = 0x00#8 := by
  simp [statusByte, busy]

/-- A `Reset` adds its own event, with the call it abandons, and the change of `STATUS` (R7, R202). -/
theorem resetBlock_trace_cons (s : State) :
    (resetBlock s).trace = s.trace ++ .reset (pendingCall s) :: statusChange (statusByte s) 0x00#8 := by
  rw [resetBlock_trace, List.append_assoc, List.singleton_append]

/-! ### Answers no call waits for -/

/-- The block is as it was after a late answer; only the record may have it (R202). -/
theorem discardAnswer_eq (a : Answer) (s : State) : discardAnswer a s = { s with trace := (discardAnswer a s).trace } := by
  obtain ⟨-, e⟩ | ⟨-, e⟩ := discardAnswer_cases a s <;> rw [e]

theorem discardAnswer_trace_of_abandoned (a : Answer) {s : State} (h : 0 < abandonedCalls s.trace) :
    (discardAnswer a s).trace = s.trace ++ [.lateAnswer a] := by
  rw [discardAnswer, if_pos h]

theorem discardAnswer_trace_of_noneAbandoned (a : Answer) {s : State} (h : abandonedCalls s.trace = 0) :
    (discardAnswer a s).trace = s.trace := by
  rw [discardAnswer, if_neg h.not_gt]

/-- Settles O3: the first clause reads the fields of `resetBlock`, the second asks whether an abandoned call is still
unanswered, and the third is that an idle framer takes no step. -/
theorem platformResetAbandonsTransaction : Obligations.PlatformResetAbandonsTransaction := by
  refine ⟨fun s rest hq => ?_, fun s a rest hq => ?_, fun s a rest hp hq => ?_⟩
  · exact ⟨resetBlock (setInputs rest s), step_env hq, rfl, rfl, statusByte_resetBlock _, rfl,
      resetBlock_trace_cons (setInputs rest s), rfl, rfl⟩
  · exact ⟨discardAnswer a (setInputs rest s), step_env hq, discardAnswer_eq a _,
      fun h => discardAnswer_trace_of_abandoned a (s := setInputs rest s) h,
      fun h => discardAnswer_trace_of_noneAbandoned a (s := setInputs rest s) h⟩
  · rw [step_env hq, takeEnvironment, framerStep_idle a (s := setInputs rest s) hp]
    rfl

/-! ### The line -/

/-- After `Reset` and before the first command the platform makes the line high (R202, R204). -/
theorem restoreLine_beforeCommand {s : State} (hp : s.phase = .idle) (hd : s.done = false) :
    restoreLine s = { s with csLine := .high } :=
  if_pos ⟨hp, hd⟩

/-- While a transaction runs and after one has ended, the platform's event does nothing (R182, log entry 19). -/
theorem restoreLine_afterCommand {s : State} (h : s.phase ≠ .idle ∨ s.done = true) : restoreLine s = s := by
  refine if_neg ?_
  rintro ⟨hp, hd⟩
  rcases h with hb | hdone
  · exact hb hp
  · simp [hd] at hdone

/-- Settles O52: both clauses are the platform's operation on the state with the input taken, which leaves `pc` and
`DONE` as the clause's premise has them. -/
theorem platformRestoresLine : Obligations.PlatformRestoresLine := by
  intro s rest hq
  rw [step_env hq, takeEnvironment]
  constructor
  · intro hp hd
    rw [restoreLine_beforeCommand (s := setInputs rest s) hp hd]
    exact ⟨_, rfl, rfl, rfl⟩
  · intro h
    rw [restoreLine_afterCommand (s := setInputs rest s) h]
    rfl

end Sys2Proof.Proofs.ResetAndHazards
end
